-- ==== Sys2Proof/Word.lean ====
section
/-! DEFINITION. The word, the register index, and the two integer readings of a word (00_scope.md R8). -/

namespace Sys2Proof

/-- A 32-bit word: every register value, memory word and instruction word (R8, R11). -/
abbrev Word := BitVec 32

/-- A register index: an integer in [0,7] (R21, R71). -/
abbrev Reg := Fin 8

/-- `signed(v)` of R8: the two's-complement reading, in [-2^31, 2^31 - 1]. -/
abbrev signed (v : Word) : Int := v.toInt

/-- `unsigned(v)` of R8, in [0, 2^32 - 1]. -/
abbrev unsigned (v : Word) : Int := (v.toNat : Int)

end Sys2Proof
end

