-- ==== Sys2Proof/Config.lean ====
section
/-! DEFINITION. The implementation parameters of 00_scope.md R6, and the free values: what the spec leaves
unspecified. MAX_LINE_LEN and MAX_LABEL_LEN belong to the assembler and stand in Machine/Assembler.lean. -/

namespace Sys2Proof

/-- `UNLOADED_READ` (R6, R43, decision D11): what reading a word that was neither loaded nor stored does. -/
inductive UnloadedRead where
  /-- the read raises UninitializedRead (the default) -/
  | fault
  /-- the word reads as 0 -/
  | zero
deriving DecidableEq, Repr

/-- `HIGH_BITS_CHECK` (R6, R66, decision D3): whether instruction bits 31:25 must be zero. -/
inductive HighBitsCheck where
  /-- a word with bits 31:25 nonzero raises UnknownOpcode (the default) -/
  | strict
  /-- bits 31:25 are ignored -/
  | ignore
deriving DecidableEq, Repr

/-- The core's parameters (R6). `COUNT_BITS` has no field: R6 makes the model's counter an unbounded natural number. -/
structure Config where
  /-- `MEM_WORDS`, the memory capacity in words -/
  memWords : Nat
  /-- `UNLOADED_READ` -/
  unloadedRead : UnloadedRead
  /-- `HIGH_BITS_CHECK` -/
  highBitsCheck : HighBitsCheck
deriving DecidableEq, Repr

/-- The defaults of R6. DESIGN CHOICE of the spec (decisions D7, D11, D3; log 3, 4, 5). -/
def Config.default : Config := ⟨65536, .fault, .strict⟩

/-- The range R6 gives `MEM_WORDS`. -/
abbrev Config.wf (c : Config) : Prop := 1 ≤ c.memWords ∧ c.memWords ≤ 2 ^ 31

/-- FREE VALUE: what `pc` holds after a fault (R163: unspecified; I2: any value). Log 14.
The argument is the draw's number, `State.drawn`. -/
opaque Config.pcAfterFault : Nat → Word

/-- FREE VALUE: what `count` holds after a fault (R163: unspecified; I2: any value). Log 14. -/
opaque Config.countAfterFault : Nat → Nat

end Sys2Proof
end

