-- ==== Sys2Proof/Syntax.lean ====
section
/-! DEFINITION. The eight instructions of spec/opcode_table.json, as the decoder of 30_encoding.md R68 gives them. -/

namespace Sys2Proof

/-- One constructor per row of the opcode table (R60). `off32` is the sign-extended offset, a 32-bit value (R68, R70). -/
inductive Instr where
  /-- `add regA regB destReg` (R120) -/
  | add (regA regB destReg : Reg)
  /-- `nor regA regB destReg` (R121) -/
  | nor (regA regB destReg : Reg)
  /-- `lw regA regB offset` (R130) -/
  | lw (regA regB : Reg) (off32 : Word)
  /-- `sw regA regB offset` (R131) -/
  | sw (regA regB : Reg) (off32 : Word)
  /-- `beq regA regB offset` (R140) -/
  | beq (regA regB : Reg) (off32 : Word)
  /-- `jalr regA regB` (R141) -/
  | jalr (regA regB : Reg)
  /-- `halt` (R150) -/
  | halt
  /-- `noop` (R151) -/
  | noop
deriving DecidableEq, Repr

end Sys2Proof
end

