-- ==== Sys2Proof/WellFormed.lean ====
section
/-! DEFINITION. Which instruction terms an encoding exists for (30_encoding.md R70, R76). A register operand is a
`Fin 8`, so R76's register check holds by type; the offset check is the one that can fail. -/

namespace Sys2Proof

/-- R70: `signed(off32)` lies in [-32768, 32767], so that `off32` is the sign extension of a 16-bit field. -/
def offsetFits (off32 : Word) : Bool := decide (-32768 ≤ signed off32) && decide (signed off32 ≤ 32767)

/-- The operands are ones R76 accepts. -/
def Instr.wellFormed : Instr → Bool
  | .add _ _ _ => true
  | .nor _ _ _ => true
  | .lw _ _ off32 => offsetFits off32
  | .sw _ _ off32 => offsetFits off32
  | .beq _ _ off32 => offsetFits off32
  | .jalr _ _ => true
  | .halt => true
  | .noop => true

end Sys2Proof
end

