-- ==== Sys2Proof/Decode.lean ====
section
/-! DEFINITION. The decoder and the encoder of 30_encoding.md R60 to R77. -/

namespace Sys2Proof

/-- The eight opcodes (R60). -/
inductive Opcode where
  | add | nor | lw | sw | beq | jalr | halt | noop
deriving DecidableEq, Repr

/-- Why the decoder refuses a word. -/
inductive DecodeError where
  /-- `UnknownOpcode(instr)` (R66): bits 31:25 are nonzero and HIGH_BITS_CHECK is strict. -/
  | unknownOpcode (instr : Word)
deriving DecidableEq, Repr

/-- The 3-bit tag of an opcode (R60). UNVERIFIED: the values are the spec's decision D1 (log 6). -/
def Opcode.tag : Opcode → BitVec 3
  | .add => 0b000#3
  | .nor => 0b001#3
  | .lw => 0b010#3
  | .sw => 0b011#3
  | .beq => 0b100#3
  | .jalr => 0b101#3
  | .halt => 0b110#3
  | .noop => 0b111#3

/-- The opcode a tag names: all eight values are defined (R74). -/
def opcodeOfTag (tag : BitVec 3) : Opcode :=
  match tag.toFin with
  | 0 => .add
  | 1 => .nor
  | 2 => .lw
  | 3 => .sw
  | 4 => .beq
  | 5 => .jalr
  | 6 => .halt
  | 7 => .noop

/-- The opcode of an instruction. -/
def Instr.opcode : Instr → Opcode
  | .add _ _ _ => .add
  | .nor _ _ _ => .nor
  | .lw _ _ _ => .lw
  | .sw _ _ _ => .sw
  | .beq _ _ _ => .beq
  | .jalr _ _ => .jalr
  | .halt => .halt
  | .noop => .noop

/-! ## Fields (R10, R62 to R66). UNVERIFIED: the register positions are the spec's decision D2 (log 6). -/

/-- `instr[31:25]`, which belongs to no field (R66). -/
def highBits (instr : Word) : BitVec 7 := instr.extractLsb 31 25

/-- `opcode = instr[24:22]` (R62). -/
def opcodeField (instr : Word) : BitVec 3 := instr.extractLsb 24 22

/-- A 3-bit field value v names register v (R71). -/
def regOfField (field : BitVec 3) : Reg := field.toFin

/-- `regA = instr[21:19]` (R63), masked to 3 bits in every class (R69). -/
def regAField (instr : Word) : Reg := regOfField (instr.extractLsb 21 19)

/-- `regB = instr[18:16]` (R63). -/
def regBField (instr : Word) : Reg := regOfField (instr.extractLsb 18 16)

/-- `destReg = instr[2:0]` (R64). -/
def destRegField (instr : Word) : Reg := regOfField (instr.extractLsb 2 0)

/-- `sext_16` of R8. -/
def sext16 (field : BitVec 16) : Word := field.signExtend 32

/-- `off32 = sext_16(instr[15:0])` (R65, R70). -/
def off32Field (instr : Word) : Word := sext16 (instr.extractLsb 15 0)

/-- R66: the word is refused for its bits 31:25. -/
def unknownOpcode (check : HighBitsCheck) (instr : Word) : Bool :=
  match check with
  | .strict => highBits instr != 0#7
  | .ignore => false

/-! ## The decoder -/

/-- The `case opcode` of R68. -/
def decodeFields (instr : Word) : Instr :=
  match opcodeOfTag (opcodeField instr) with
  | .add => .add (regAField instr) (regBField instr) (destRegField instr)
  | .nor => .nor (regAField instr) (regBField instr) (destRegField instr)
  | .lw => .lw (regAField instr) (regBField instr) (off32Field instr)
  | .sw => .sw (regAField instr) (regBField instr) (off32Field instr)
  | .beq => .beq (regAField instr) (regBField instr) (off32Field instr)
  | .jalr => .jalr (regAField instr) (regBField instr)
  | .halt => .halt
  | .noop => .noop

/-- `decode(instr)` of R68, a total function of one word (R61, R75). -/
def decode (check : HighBitsCheck) (instr : Word) : Except DecodeError Instr :=
  if unknownOpcode check instr then .error (.unknownOpcode instr) else .ok (decodeFields instr)

/-- The decoder's answer for bits numbered as spec/opcode_table.json numbers them: a table row is one 32-bit word,
bit 0 its least significant bit, so the word is those bits. HIGH_BITS_CHECK at its default, the table's own mask. -/
def decodeTableWord (nbits w : Nat) : Option Instr :=
  match decode Config.default.highBitsCheck (BitVec.ofNat 32 (w % 2 ^ nbits)) with
  | .ok i => some i
  | .error _ => none

/-! ## The encoder (R76) -/

/-- A register index placed at bit `at_`. -/
def placeReg (r : Reg) (at_ : Nat) : Word := BitVec.ofNat 32 r.val <<< at_

/-- `opcode << 22`. -/
def placeOpcode (op : Opcode) : Word := op.tag.setWidth 32 <<< 22

/-- Format R: `(opcode << 22) | (regA << 19) | (regB << 16) | destReg`. -/
def encodeR (op : Opcode) (regA regB destReg : Reg) : Word :=
  placeOpcode op ||| placeReg regA 19 ||| placeReg regB 16 ||| placeReg destReg 0

/-- Format I: `(opcode << 22) | (regA << 19) | (regB << 16) | (offset & 0xFFFF)`. -/
def encodeI (op : Opcode) (regA regB : Reg) (off32 : Word) : Word :=
  placeOpcode op ||| placeReg regA 19 ||| placeReg regB 16 ||| (off32 &&& 0xFFFF#32)

/-- Format J: `(opcode << 22) | (regA << 19) | (regB << 16)`. -/
def encodeJ (op : Opcode) (regA regB : Reg) : Word :=
  placeOpcode op ||| placeReg regA 19 ||| placeReg regB 16

/-- Format O: `opcode << 22`. -/
def encodeO (op : Opcode) : Word := placeOpcode op

/-- The word of a well-formed instruction (R76). -/
def encode : Instr → Word
  | .add regA regB destReg => encodeR .add regA regB destReg
  | .nor regA regB destReg => encodeR .nor regA regB destReg
  | .lw regA regB off32 => encodeI .lw regA regB off32
  | .sw regA regB off32 => encodeI .sw regA regB off32
  | .beq regA regB off32 => encodeI .beq regA regB off32
  | .jalr regA regB => encodeJ .jalr regA regB
  | .halt => encodeO .halt
  | .noop => encodeO .noop

/-- The four instruction formats (R60). -/
inductive Format where
  /-- register-register -/
  | r
  /-- register-register-offset -/
  | i
  /-- register-register only -/
  | j
  /-- no operand -/
  | o
deriving DecidableEq, Repr

/-- The format column of R60. -/
def Opcode.format : Opcode → Format
  | .add => .r
  | .nor => .r
  | .lw => .i
  | .sw => .i
  | .beq => .i
  | .jalr => .j
  | .halt => .o
  | .noop => .o

/-- The bits of 24:0 that the decoder reads, by format (R67): the unused ones are ignored. DESIGN CHOICE of the spec
(D4, log 7). -/
def Format.usedBits : Format → Word
  | .r => 0x01FF0007#32
  | .i => 0x01FFFFFF#32
  | .j => 0x01FF0000#32
  | .o => 0x01C00000#32

end Sys2Proof
end

