-- ==== Sys2Proof/Machine/State.lean ====
section
/-! DEFINITION. The architectural state (10_state.md R20 to R33), the reasons a step stops, and the state after reset. -/

namespace Sys2Proof.Machine

/-- The six causes a step can raise (60_exceptions.md R160). -/
inductive FaultCause where
  | unknownOpcode
  | outOfRangeFetch
  | outOfRangeLoad
  | outOfRangeStore
  | uninitializedReadFetch
  | uninitializedReadLoad
deriving DecidableEq, Repr

/-- `faulted(cause, ia, info)` (R29, R160, R162). -/
structure FaultRecord where
  /-- the cause -/
  cause : FaultCause
  /-- the address of the faulting instruction; for an out-of-range fetch the pc itself -/
  ia : Word
  /-- the instruction word, the pc value or the effective address, read as an integer (an EA may be negative) -/
  info : Int
deriving DecidableEq, Repr

/-- The run state (R29). -/
inductive RunState where
  | running
  | halted
  | faulted (record : FaultRecord)
deriving DecidableEq, Repr

/-- Memory: the words that have been given a value, as (word address, word) pairs with addresses strictly rising.
The smallest addressable unit is the 32-bit word (R45), so a cell is a word. A word is `written` (R31) exactly when
it is listed; an unlisted word holds no value. DESIGN CHOICE, safe (log 2). -/
abbrev Memory := List (Nat × Word)

/-- The canonical form: addresses strictly rising. No entry can equal what an unlisted address holds, since that is no
value at all. -/
abbrev Memory.wf (m : Memory) : Prop := m.Pairwise fun c d => c.1 < d.1

/-- The state vector of R20, with the parameters of 00_scope.md R6 beside it (log 1). -/
structure State where
  /-- `x[0..7]`, the general registers (R21) -/
  x : Vector Word 8
  /-- the program counter (R23) -/
  pc : Word
  /-- `mem` and `written` (R30, R31) -/
  mem : Memory
  /-- the executed-instruction counter (R28) -/
  count : Nat
  /-- the run state (R29) -/
  run : RunState
  /-- the parameters (00_scope.md R6); no step changes them -/
  cfg : Config
  /-- THE MODEL'S OWN: the number of the free value the next fault draws (log 14, 15) -/
  drawn : Nat
deriving DecidableEq, Repr

/-- Why a step gives no next state. The faults of R160 are NOT here: taking one is a next state (R162). -/
inductive Fault where
  /-- Raised by `step` alone, at a halted core: it takes no further step (R100, R153). Safe: the spec gives no next state. -/
  | coreHalted
  /-- Raised by `step` alone, at a faulted core: it takes no further step (R100, R162). Safe: the spec gives no next state. -/
  | coreFaulted (record : FaultRecord)
deriving DecidableEq, Repr

/-- Why an instruction has no meaning. -/
inductive Refusal where
  /-- Raised by an arm of `exec` whose instruction has no meaning yet, and by nothing else; no arm does. Safe. -/
  | notModelled (mnemonic : String)
deriving DecidableEq, Repr

/-- The machine after reset with the empty image (R33, R180): the image comes from the host (R181), and
`State.boot` of Machine/Loader.lean is reset with one. The reset of x[1..7] is the spec's decision D10 (log 12);
the parameters stand at their defaults (log 3, 4, 5); `drawn` is the model's (log 15). -/
def State.reset : State where
  x := Vector.replicate 8 0#32
  pc := 0#32
  mem := []
  count := 0
  run := .running
  cfg := Config.default
  drawn := 0

end Sys2Proof.Machine
end

