-- ==== Sys2Proof/Machine/Ops.lean ====
section
/-! DEFINITION. The named operations over memory and registers (00_scope.md R9, 20_memory.md R42 to R44), fetching and
decoding (40_sequencer.md R101, R103), and taking a fault (60_exceptions.md R162, R163). -/

namespace Sys2Proof.Machine

/-! ## Memory cells -/

/-- The word at address `a`, or none where no value was ever put: `written[a]` is that this is `some`. -/
def Memory.cell : Memory → Nat → Option Word
  | [], _ => none
  | (b, w) :: rest, a => if a = b then some w else Memory.cell rest a

/-- Puts `v` at address `a`, keeping the canonical form. -/
def Memory.put : Memory → Nat → Word → Memory
  | [], a, v => [(a, v)]
  | (b, w) :: rest, a, v =>
    if a < b then (a, v) :: (b, w) :: rest
    else if a = b then (a, v) :: rest
    else (b, w) :: Memory.put rest a v

/-- `written[a]` of R31. -/
def State.written (s : State) (a : Nat) : Bool := (s.mem.cell a).isSome

/-- What an unlisted word reads as: no value, or 0 under `UNLOADED_READ = zero` (R31, D11, log 3). -/
def unlistedRead (u : UnloadedRead) : Option Word :=
  match u with
  | .fault => none
  | .zero => some 0#32

/-- The value a read of word `a` gives, if it gives one. -/
def State.readable (s : State) (a : Nat) : Option Word :=
  match s.mem.cell a with
  | some v => some v
  | none => unlistedRead s.cfg.unloadedRead

/-! ## Faults -/

/-- The spec's number for a cause (R160). DESIGN CHOICE of the spec (D12, log 13). -/
def FaultCause.code : FaultCause → Nat
  | .unknownOpcode => 1
  | .outOfRangeFetch => 2
  | .outOfRangeLoad => 3
  | .outOfRangeStore => 4
  | .uninitializedReadFetch => 5
  | .uninitializedReadLoad => 6

/-- What an operation raises: `raise E(info)` of R9. -/
structure Raised where
  /-- E -/
  cause : FaultCause
  /-- the recorded info (R160) -/
  info : Int
deriving DecidableEq, Repr

/-- Which read an access is: a fetch or an lw (R42, R43). -/
inductive ReadKind where
  | fetch
  | load
deriving DecidableEq, Repr

/-- `OutOfRange(kind)` of a read. -/
def ReadKind.outOfRange : ReadKind → FaultCause
  | .fetch => .outOfRangeFetch
  | .load => .outOfRangeLoad

/-- `UninitializedRead(kind)`. -/
def ReadKind.uninitialized : ReadKind → FaultCause
  | .fetch => .uninitializedReadFetch
  | .load => .uninitializedReadLoad

/-- Taking a fault (R162, R163), from the state at the fetch, whose pc is ia: registers and memory stay, `run` becomes
the record, and pc and count become free values (log 14). No handler runs and no state is saved; there is no return from a
fault (R166), and only reset leaves the faulted state (R180). -/
def State.takeFault (s : State) (r : Raised) : State :=
  { s with
    run := .faulted ⟨r.cause, s.pc, r.info⟩
    pc := Config.pcAfterFault s.drawn
    count := Config.countAfterFault s.drawn
    drawn := s.drawn + 1 }

/-! ## Memory accesses -/

/-- R42: an access to integer address a is in range iff 0 <= a < MEM_WORDS. -/
def inRange (c : Config) (a : Int) : Bool := decide (0 ≤ a) && decide (a < (c.memWords : Int))

/-- `MemRead(a, 1)` with the range check before it (R42, R43). -/
def State.memRead (s : State) (kind : ReadKind) (a : Int) : Except Raised Word :=
  if inRange s.cfg a then
    match s.readable a.toNat with
    | some v => .ok v
    | none => .error ⟨kind.uninitialized, a⟩
  else .error ⟨kind.outOfRange, a⟩

/-- `MemWrite(a, 1, v)` with the range check before it (R42, R44): the word gets v and is written. -/
def State.memWrite (s : State) (a : Int) (v : Word) : Except Raised State :=
  if inRange s.cfg a then .ok { s with mem := s.mem.put a.toNat v } else .error ⟨.outOfRangeStore, a⟩

/-! ## Registers, pc, count, run -/

/-- `x[i]` of R9. No register is hardwired (R21). -/
def State.reg (s : State) (r : Reg) : Word := s.x.get r

/-- `x[i] <- v` of R9. -/
def State.setReg (s : State) (r : Reg) (v : Word) : State := { s with x := s.x.set r.val v r.isLt }

/-- `pc <- t` of R9. -/
def State.setPc (s : State) (t : Word) : State := { s with pc := t }

/-- R102: `pc <- ia + 1`, before the instruction's own rule. -/
def State.incPc (s : State) : State := { s with pc := s.pc + 1#32 }

/-- R105: `count <- count + 1`, when the instruction's rule completes. -/
def State.incCount (s : State) : State := { s with count := s.count + 1 }

/-- `run <- halted` of R9. -/
def State.setHalted (s : State) : State := { s with run := .halted }

/-! ## Fetch and decode -/

/-- R101: the word at the pc, or the fault of the fetch. -/
def State.fetch (s : State) : Except Raised Word := s.memRead .fetch (unsigned s.pc)

/-- R101, R103: the instruction the step runs, or the fault it takes. -/
def State.fetchDecode (s : State) : Except Raised Instr :=
  match s.fetch with
  | .error r => .error r
  | .ok instr =>
    match decode s.cfg.highBitsCheck instr with
    | .error (.unknownOpcode w) => .error ⟨.unknownOpcode, unsigned w⟩
    | .ok i => .ok i

/-- The state with the bits of a table word placed where the next fetch reads them; a pc outside memory fetches
nothing, and the state is then unchanged. -/
def State.placeAtPc (s : State) (nbits w : Nat) : State :=
  match s.memWrite (unsigned s.pc) (BitVec.ofNat 32 (w % 2 ^ nbits)) with
  | .ok t => t
  | .error _ => s

end Sys2Proof.Machine
end

