-- ==== Sys2Proof/Machine/Alu.lean ====
section
/-! DEFINITION. Execute stage: add and nor (41_alu.md R120 to R122). -/

namespace Sys2Proof.Machine

/-- Addition modulo 2^32, overflow recorded nowhere (R120, R122). DESIGN CHOICE of the spec (D6, log 8). -/
def aluAdd (va vb : Word) : Word := va + vb

/-- Bitwise NOT of the OR, all 32 bits (R121). -/
def aluNor (va vb : Word) : Word := ~~~(va ||| vb)

/-- A format R instruction: both sources are read, then destReg is written (R22, R120, R121). -/
def State.writeAlu (s : State) (op : Word → Word → Word) (regA regB destReg : Reg) : State :=
  (s.incPc.setReg destReg (op (s.reg regA) (s.reg regB))).incCount

/-- `add regA regB destReg` (R120). -/
def execAdd (regA regB destReg : Reg) (s : State) : Host.Outcome State Fault Refusal :=
  .next (s.writeAlu aluAdd regA regB destReg)

/-- `nor regA regB destReg` (R121). -/
def execNor (regA regB destReg : Reg) (s : State) : Host.Outcome State Fault Refusal :=
  .next (s.writeAlu aluNor regA regB destReg)

end Sys2Proof.Machine
end

