-- ==== Sys2Proof/Machine/Flags.lean ====
section
/-! DEFINITION. The core has no flags, condition codes or predicates, and no instruction writes one (10_state.md R26).
The one condition an instruction tests is beq's, and it is computed from the registers afresh. -/

namespace Sys2Proof.Machine

/-- `eq = (va == vb)` of 41_alu.md R123: equality of two 32-bit words, which has no signedness (R122, R140). -/
def wordsEqual (va vb : Word) : Bool := va == vb

end Sys2Proof.Machine
end

