-- ==== Sys2Proof/Machine/Operands.lean ====
section
/-! DEFINITION. The operand forms: the one addressing mode of lw and sw (20_memory.md R41, 42_loadstore.md R132) and the
branch target of beq (43_control.md R140). -/

namespace Sys2Proof.Machine

/-- `EA = int(signed(x[regA])) + int(signed(off32))`, an exact integer, never wrapped (R41).
DESIGN CHOICE of the spec (D9, log 9): the base is read as signed. -/
def effectiveAddress (base off32 : Word) : Int := signed base + signed off32

/-- `t = int(unsigned(ia)) + 1 + int(signed(off32))`, an exact integer (R140). -/
def branchTarget (ia off32 : Word) : Int := unsigned ia + 1 + signed off32

/-- A pc value is stored modulo 2^32 (R140). DESIGN CHOICE of the spec (D8, log 10). -/
def pcOfInt (t : Int) : Word := BitVec.ofInt 32 t

end Sys2Proof.Machine
end

