-- ==== Sys2Proof/Machine/Control.lean ====
section
/-! DEFINITION. Branch and jump resolution: beq and jalr (43_control.md R140, R141). Neither raises a fault: a target
out of range is caught by the next fetch (R25; DESIGN CHOICE of the spec, D23, log 10). -/

namespace Sys2Proof.Machine

/-- `beq regA regB offset` (R140): a taken branch counts its distance from pc1 = ia + 1. -/
def execBeq (regA regB : Reg) (off32 : Word) (s : State) : Host.Outcome State Fault Refusal :=
  if wordsEqual (s.reg regA) (s.reg regB) then
    .next (s.setPc (pcOfInt (branchTarget s.pc off32))).incCount
  else .next s.incPc.incCount

/-- The link write of jalr: `x[regB] <- pc1` (R141). -/
def State.link (s : State) (regB : Reg) : State := s.incPc.setReg regB (s.pc + 1#32)

/-- `jalr regA regB` (R141): the link is written first, and the target read after it, so equal registers fall through
to pc1. DESIGN CHOICE of the spec (D26, log 11). -/
def execJalr (regA regB : Reg) (s : State) : Host.Outcome State Fault Refusal :=
  .next ((s.link regB).setPc ((s.link regB).reg regA)).incCount

end Sys2Proof.Machine
end

