-- ==== Sys2Proof/Machine/LoadStore.lean ====
section
/-! DEFINITION. The load/store unit: lw and sw (42_loadstore.md R130, R131). -/

namespace Sys2Proof.Machine

/-- `lw regA regB offset` (R130): EA from the old base, the access or its fault, then the register write. -/
def execLw (regA regB : Reg) (off32 : Word) (s : State) : Host.Outcome State Fault Refusal :=
  match s.memRead .load (effectiveAddress (s.reg regA) off32) with
  | .error r => .next (s.takeFault r)
  | .ok v => .next (s.incPc.setReg regB v).incCount

/-- `sw regA regB offset` (R131): the store or its fault; no register is written. -/
def execSw (regA regB : Reg) (off32 : Word) (s : State) : Host.Outcome State Fault Refusal :=
  match s.incPc.memWrite (effectiveAddress (s.reg regA) off32) (s.reg regB) with
  | .error r => .next (s.takeFault r)
  | .ok t => .next t.incCount

end Sys2Proof.Machine
end

