-- ==== Sys2Proof/Machine/System.lean ====
section
/-! DEFINITION. halt and noop (44_system.md R150, R151). -/

namespace Sys2Proof.Machine

/-- `halt` (R150): pc is ia + 1, the halt itself is counted (R105), and the core is halted. -/
def execHalt (s : State) : Host.Outcome State Fault Refusal :=
  .next s.incPc.incCount.setHalted

/-- `noop` (R151): pc is ia + 1 and the instruction is counted. -/
def execNoop (s : State) : Host.Outcome State Fault Refusal :=
  .next s.incPc.incCount

end Sys2Proof.Machine
end

