-- ==== Sys2Proof/Machine/Dispatch.lean ====
section
/-! DEFINITION. The dispatch of 40_sequencer.md R104: the meaning of each instruction, from the state at its fetch
(pc = ia) to the state after the step (log 19). -/

namespace Sys2Proof.Machine

def exec (i : Instr) (s : State) : Host.Outcome State Fault Refusal :=
  match i with
  | .add regA regB destReg => Sys2Proof.Machine.execAdd regA regB destReg s
  | .nor regA regB destReg => Sys2Proof.Machine.execNor regA regB destReg s
  | .lw regA regB off32 => Sys2Proof.Machine.execLw regA regB off32 s
  | .sw regA regB off32 => Sys2Proof.Machine.execSw regA regB off32 s
  | .beq regA regB off32 => Sys2Proof.Machine.execBeq regA regB off32 s
  | .jalr regA regB => Sys2Proof.Machine.execJalr regA regB s
  | .halt => Sys2Proof.Machine.execHalt s
  | .noop => Sys2Proof.Machine.execNoop s

end Sys2Proof.Machine
end

