-- ==== Sys2Proof/Machine/Step.lean ====
section
/-! DEFINITION. The whole step of 40_sequencer.md R106. -/

namespace Sys2Proof.Machine

/-- One step (R106): a running core fetches, decodes and executes; a fault of the fetch or the decoder is taken as a next
state (R162); a core that is halted or faulted takes no step (R100). -/
def step (s : State) : Host.Outcome State Fault Refusal :=
  match s.run with
  | .halted => .fault .coreHalted
  | .faulted record => .fault (.coreFaulted record)
  | .running =>
    match s.fetchDecode with
    | .error r => .next (s.takeFault r)
    | .ok i => exec i s

/-- The state with a table word placed at the pc, so that `step` fetches and runs it: the host's load of one word (log 20). -/
def State.withFetchWord (s : State) (nbits w : Nat) : State := s.placeAtPc nbits w

end Sys2Proof.Machine
end

