-- ==== Sys2Proof/Machine/Numerals.lean ====
section
/-! DEFINITION. Decimal numerals of the two text forms around the core: the assembler's numeric tokens
(92_eei_decisions.md D17 (d)) and the machine-code file's lines (70_reset_and_hazards.md R182, 30_encoding.md R87). -/

namespace Sys2Proof.Machine

/-- The value of a decimal digit. -/
def digitValue (c : Char) : Option Nat :=
  if 48 ≤ c.toNat ∧ c.toNat ≤ 57 then some (c.toNat - 48) else none

/-- Reads digits to the end, most significant first. -/
def readDigits (acc : Nat) : List Char → Option Nat
  | [] => some acc
  | c :: cs =>
    match digitValue c with
    | some d => readDigits (acc * 10 + d) cs
    | none => none

/-- One digit or more. -/
def readNatural : List Char → Option Nat
  | [] => none
  | c :: cs => readDigits 0 (c :: cs)

/-- A numeric token: an optional sign followed by decimal digits (D17 (d)). -/
def readInteger : List Char → Option Int
  | [] => none
  | c :: cs =>
    if c = '-' then (readNatural cs).map fun n => -(n : Int)
    else if c = '+' then (readNatural cs).map fun n => (n : Int)
    else (readNatural (c :: cs)).map fun n => (n : Int)

/-- The digits of n, at most `fuel` of them; a word needs ten. -/
def writeDigits : Nat → Nat → List Char
  | 0, _ => []
  | fuel + 1, n =>
    if n < 10 then [Char.ofNat (48 + n)] else writeDigits fuel (n / 10) ++ [Char.ofNat (48 + n % 10)]

/-- A word as its signed 32-bit decimal value (D16). -/
def writeWord (w : Word) : List Char :=
  if signed w < 0 then '-' :: writeDigits 10 (signed w).natAbs else writeDigits 10 (signed w).natAbs

/-- The integers that stand for a word, [-2^31, 2^32-1], taken modulo 2^32 (D16, D19). -/
def wordOfInteger (v : Int) : Option Word :=
  if -2 ^ 31 ≤ v ∧ v ≤ 2 ^ 32 - 1 then some (BitVec.ofInt 32 v) else none

end Sys2Proof.Machine
end

