-- ==== Sys2Proof/Machine/Assembler.lean ====
section
/-! DEFINITION. The encode contract and the assembler's syntax (30_encoding.md R76, R80 to R88), which fix how programs
become words. The assembler is surrounding software (00_scope.md R5): no rule of the core rests on this file.
Which failure is reported when several apply, a line without a mnemonic, a label that is too long, what the two maximum
lengths count and which characters a label name may contain are the model's own DESIGN CHOICE (log 22). -/

namespace Sys2Proof.Machine

/-- The assembler's failures (R88), each fatal. -/
inductive AsmError where
  | invalidRegister
  | offsetOutOfRange
  | duplicateLabel
  | undefinedLabel
  | unknownOpcode
  | lineTooLong
  | malformedLine
  | fileOpenFailure
  /-- the model's own: a label longer than MAX_LABEL_LEN, for which the spec names no failure (log 22) -/
  | labelTooLong
deriving DecidableEq, Repr

/-- The OPEN parameters of R6, assembler only (D18). What each length counts is not given either. DESIGN CHOICE (log 22):
characters, as the fields say. -/
structure AsmLimits where
  /-- `MAX_LINE_LEN`: the most characters a line may have, its newline not counted -/
  maxLineLen : Nat
  /-- `MAX_LABEL_LEN`: the most characters a label name may have, a trailing `:` not counted -/
  maxLabelLen : Nat
deriving DecidableEq, Repr

/-! ## The encode contract (R76) -/

/-- A register operand: in [0,7]. -/
def checkReg (v : Int) : Except AsmError Reg :=
  if h : 0 ≤ v ∧ v ≤ 7 then .ok ⟨v.toNat, by omega⟩ else .error .invalidRegister

/-- An offset operand: in [-32768, 32767]. -/
def checkOffset (v : Int) : Except AsmError Word :=
  if -32768 ≤ v ∧ v ≤ 32767 then .ok (BitVec.ofInt 32 v) else .error .offsetOutOfRange

/-- A `.fill` value: in [-2^31, 2^32-1], stored modulo 2^32 (R84, D19). -/
def checkFill (v : Int) : Except AsmError Word :=
  match wordOfInteger v with
  | some w => .ok w
  | none => .error .offsetOutOfRange

/-- The operands of a format R instruction. -/
def checkedR (mk : Reg → Reg → Reg → Instr) : List Int → Except AsmError Instr
  | [a, b, d] => do return mk (← checkReg a) (← checkReg b) (← checkReg d)
  | _ => .error .malformedLine

/-- The operands of a format I instruction. -/
def checkedI (mk : Reg → Reg → Word → Instr) : List Int → Except AsmError Instr
  | [a, b, offset] => do return mk (← checkReg a) (← checkReg b) (← checkOffset offset)
  | _ => .error .malformedLine

/-- The operands of a format J instruction. -/
def checkedJ (mk : Reg → Reg → Instr) : List Int → Except AsmError Instr
  | [a, b] => do return mk (← checkReg a) (← checkReg b)
  | _ => .error .malformedLine

/-- No operands. -/
def checkedO (i : Instr) : List Int → Except AsmError Instr
  | [] => .ok i
  | _ => .error .malformedLine

/-- The instruction an opcode and its operands make, each operand checked as R76 lists. -/
def checkedInstr (op : Opcode) (operands : List Int) : Except AsmError Instr :=
  match op with
  | .add => checkedR .add operands
  | .nor => checkedR .nor operands
  | .lw => checkedI .lw operands
  | .sw => checkedI .sw operands
  | .beq => checkedI .beq operands
  | .jalr => checkedJ .jalr operands
  | .halt => checkedO .halt operands
  | .noop => checkedO .noop operands

/-- The encode contract (R76): an opcode and operands to a word, or the failure. -/
def encodeChecked (op : Opcode) (operands : List Int) : Except AsmError Word :=
  (checkedInstr op operands).map encode

/-! ## Source lines (R80) -/

/-- A token: a run of characters that are not horizontal whitespace (R80). -/
abbrev Token := List Char

/-- Horizontal whitespace. -/
def isBlank (c : Char) : Bool := c == ' ' || c == '\t'

/-- The tokens of a text; `acc` holds the current token, last character first. -/
def splitTokens (acc : Token) : List Char → List Token
  | [] => if acc.isEmpty then [] else [acc.reverse]
  | c :: cs =>
    if isBlank c then
      if acc.isEmpty then splitTokens [] cs else acc.reverse :: splitTokens [] cs
    else splitTokens (c :: acc) cs

/-- A trailing `:` of a label token is not part of the name (D17 (b)). Which characters a name may contain is not given
(91_not_in_source.md N17), and D17 does not say. DESIGN CHOICE (log 22): any characters at all, so that a numeral is a
name, a second trailing `:` belongs to the name, and a lone `:` gives the empty name. -/
def labelName (t : Token) : Token :=
  match t.getLast? with
  | some ':' => t.dropLast
  | _ => t

/-- One source line: an optional label, a mnemonic and the argument tokens (R80). -/
structure SourceLine where
  label : Option Token
  mnemonic : Token
  args : List Token
deriving DecidableEq, Repr

/-- The first token is a label iff the line's first character is not whitespace (R80, D17 (a)). -/
def startsWithLabel : List Char → Bool
  | [] => false
  | c :: _ => !isBlank c

/-- Reads one source line (R80, R88). DESIGN CHOICE (log 22): no check of the label's characters, which the spec leaves
open (N17), so any run of characters that are not blank is accepted as a label. R88 fails a line exceeding MAX_LINE_LEN
"with no terminating newline" and does not say whether the newline counts. DESIGN CHOICE (log 22): a line here holds no
newline, and every line of more than `maxLineLen` characters fails, whether a newline ended it in the file or not. -/
def parseLine (lim : AsmLimits) (line : List Char) : Except AsmError SourceLine :=
  if lim.maxLineLen < line.length then .error .lineTooLong
  else if startsWithLabel line then
    match splitTokens [] line with
    | label :: mnemonic :: args =>
      if lim.maxLabelLen < (labelName label).length then .error .labelTooLong
      else .ok ⟨some (labelName label), mnemonic, args⟩
    | _ => .error .malformedLine
  else
    match splitTokens [] line with
    | mnemonic :: args => .ok ⟨none, mnemonic, args⟩
    | [] => .error .malformedLine

/-- Reads every line, in order. -/
def parseLines (lim : AsmLimits) : List (List Char) → Except AsmError (List SourceLine)
  | [] => .ok []
  | line :: rest => do return (← parseLine lim line) :: (← parseLines lim rest)

/-! ## Pass 1: labels (R85) -/

/-- Label names with their addresses. -/
abbrev SymbolTable := List (Token × Nat)

/-- The address a name is bound to. -/
def SymbolTable.find : SymbolTable → Token → Option Nat
  | [], _ => none
  | (n, i) :: rest, name => if name = n then some i else SymbolTable.find rest name

/-- A label is bound to its line's position, every line counting; a name defined twice fails (R85). -/
def collectLabels (line : Nat) : List SourceLine → Except AsmError SymbolTable
  | [] => .ok []
  | l :: rest =>
    match collectLabels (line + 1) rest with
    | .error e => .error e
    | .ok table =>
      match l.label with
      | none => .ok table
      | some name => if (SymbolTable.find table name).isSome then .error .duplicateLabel else .ok ((name, line) :: table)

/-! ## Pass 2: words (R81 to R84, R86, R87) -/

/-- A register operand is a decimal numeral (R82). -/
def registerValue (t : Token) : Except AsmError Int :=
  match readInteger t with
  | some v => .ok v
  | none => .error .invalidRegister

/-- A literal, or a label whose address `resolve` turns into the operand's value (R83, R84). -/
def literalOrLabel (table : SymbolTable) (resolve : Int → Int) (t : Token) : Except AsmError Int :=
  match readInteger t with
  | some v => .ok v
  | none =>
    match SymbolTable.find table t with
    | some i => .ok (resolve i)
    | none => .error .undefinedLabel

/-- What a label stands for in the offset position at line `line` (R83): in beq its distance from the next line, in lw
and sw its address. -/
def resolveOffset (op : Opcode) (line : Nat) (address : Int) : Int :=
  match op with
  | .beq => address - ((line : Int) + 1)
  | _ => address

/-- The operand values of an instruction's argument tokens, in the order of R81; tokens after the last operand are
ignored and a missing one fails (R88, D17 (e), (f)). -/
def operandValues (table : SymbolTable) (line : Nat) (op : Opcode) (args : List Token) : Except AsmError (List Int) :=
  match op.format, args with
  | .r, a :: b :: d :: _ => do return [← registerValue a, ← registerValue b, ← registerValue d]
  | .i, a :: b :: o :: _ => do
    return [← registerValue a, ← registerValue b, ← literalOrLabel table (resolveOffset op line) o]
  | .j, a :: b :: _ => do return [← registerValue a, ← registerValue b]
  | .o, _ => .ok []
  | _, _ => .error .malformedLine

/-- The spelling of each mnemonic (R81). -/
def spellingOf : Opcode → Token
  | .add => ['a', 'd', 'd']
  | .nor => ['n', 'o', 'r']
  | .lw => ['l', 'w']
  | .sw => ['s', 'w']
  | .beq => ['b', 'e', 'q']
  | .jalr => ['j', 'a', 'l', 'r']
  | .halt => ['h', 'a', 'l', 't']
  | .noop => ['n', 'o', 'o', 'p']

/-- The directive `.fill` (R84, 90_conflicts.md C4). -/
def fillSpelling : Token := ['.', 'f', 'i', 'l', 'l']

/-- The opcode a mnemonic token names. -/
def opcodeOfSpelling (t : Token) : Option Opcode :=
  [Opcode.add, .nor, .lw, .sw, .beq, .jalr, .halt, .noop].find? fun op => decide (spellingOf op = t)

/-- One source line to its word (R76, R81 to R84). -/
def assembleLine (table : SymbolTable) (line : Nat) (l : SourceLine) : Except AsmError Word :=
  if l.mnemonic = fillSpelling then
    match l.args with
    | value :: _ => do checkFill (← literalOrLabel table id value)
    | [] => .error .malformedLine
  else
    match opcodeOfSpelling l.mnemonic with
    | none => .error .unknownOpcode
    | some op => do encodeChecked op (← operandValues table line op l.args)

/-- Every line to its word, in source order (R87). -/
def assembleLines (table : SymbolTable) (line : Nat) : List SourceLine → Except AsmError (List Word)
  | [] => .ok []
  | l :: rest => do return (← assembleLine table line l) :: (← assembleLines table (line + 1) rest)

/-- The two passes (R85 to R88). -/
def assemble (lim : AsmLimits) (source : List (List Char)) : Except AsmError (List Word) := do
  let lines ← parseLines lim source
  let table ← collectLabels 0 lines
  assembleLines table 0 lines

/-- Source file to machine-code file, one signed decimal a line (R87, D16); `none` is a file that cannot be read (R88). -/
def assembleFile (lim : AsmLimits) (file : Option (List (List Char))) : Except AsmError (List (List Char)) :=
  match file with
  | none => .error .fileOpenFailure
  | some source => (assemble lim source).map (List.map writeWord)

end Sys2Proof.Machine
end

