-- ==== Sys2Proof/Machine/Datapath.lean ====
section
/-! DEFINITION. The core as the blocks and signals the spec draws: decoder and control word (30_encoding.md R72, R73), ALU
and register file (41_alu.md R123, R124), load/store unit (42_loadstore.md R133), branch and jump resolution
(43_control.md R143), sequencer (40_sequencer.md R109). The signal names are the spec's own (D21). `stepDatapath` joins
the blocks into one step; that it equals `step` is an obligation. An unused signal (a dash in R73) is `none`, and `dmem_addr` is
given where R133 leaves it open (log 23). -/

namespace Sys2Proof.Machine

/-! ## Decoder: R72, R73 -/

/-- Which field addresses the register write. -/
inductive WriteSelect where
  | rd
  | rb
deriving DecidableEq, Repr

/-- Where the register write's data comes from. -/
inductive WriteSource where
  | alu
  | mem
  | pc1
deriving DecidableEq, Repr

/-- What the ALU does. -/
inductive AluOp where
  | add
  | nor
  | eq
deriving DecidableEq, Repr

/-- The control word of R73. -/
structure ControlWord where
  regWe : Bool
  wsel : Option WriteSelect
  wsrc : Option WriteSource
  aluOp : Option AluOp
  memRe : Bool
  memWe : Bool
  branch : Bool
  jump : Bool
  halt : Bool
deriving DecidableEq, Repr

/-- The table of R73, a function of the opcode alone. -/
def controlOfOpcode : Opcode → ControlWord
  | .add => ⟨true, some .rd, some .alu, some .add, false, false, false, false, false⟩
  | .nor => ⟨true, some .rd, some .alu, some .nor, false, false, false, false, false⟩
  | .lw => ⟨true, some .rb, some .mem, none, true, false, false, false, false⟩
  | .sw => ⟨false, none, none, none, false, true, false, false, false⟩
  | .beq => ⟨false, none, none, some .eq, false, false, true, false, false⟩
  | .jalr => ⟨true, some .rb, some .pc1, none, false, false, false, true, false⟩
  | .halt => ⟨false, none, none, none, false, false, false, false, true⟩
  | .noop => ⟨false, none, none, none, false, false, false, false, false⟩

/-- R73: when `unknown_opcode` is 1, every enable is forced to 0. -/
def gateControl (unknown : Bool) (c : ControlWord) : ControlWord :=
  { c with
    regWe := c.regWe && !unknown
    memRe := c.memRe && !unknown
    memWe := c.memWe && !unknown
    branch := c.branch && !unknown
    jump := c.jump && !unknown
    halt := c.halt && !unknown }

/-- The decoder's outputs (R72). -/
structure DecoderOut where
  opcode : BitVec 3
  ra : Reg
  rb : Reg
  rd : Reg
  off32 : Word
  unknownOpcode : Bool
  control : ControlWord
deriving DecidableEq, Repr

/-- The decoder block (R72, R73). -/
def decoderUnit (check : HighBitsCheck) (instr : Word) : DecoderOut where
  opcode := opcodeField instr
  ra := regAField instr
  rb := regBField instr
  rd := destRegField instr
  off32 := off32Field instr
  unknownOpcode := unknownOpcode check instr
  control := gateControl (unknownOpcode check instr) (controlOfOpcode (opcodeOfTag (opcodeField instr)))

/-! ## ALU: R123 -/

/-- `alu_out`, where the operation gives one. -/
def aluOut (op : Option AluOp) (va vb : Word) : Option Word :=
  match op with
  | some .add => some (va + vb)
  | some .nor => some (~~~(va ||| vb))
  | some .eq => none
  | none => none

/-- `eq` of R123. -/
def aluEq (va vb : Word) : Bool := va == vb

/-! ## Load/store unit: R133 -/

/-- The load/store unit's signals of R133, `ea` being internal. -/
structure LsuOut where
  ea : BitVec 33
  dmemOob : Bool
  /-- valid when `dmemOob` is false (R133) -/
  dmemAddr : Word
  dmemRe : Bool
  dmemWe : Bool
  dmemWdata : Word
deriving DecidableEq, Repr

/-- The 33-bit signed adder of R133. -/
def lsuEa (va off32 : Word) : BitVec 33 := va.signExtend 33 + off32.signExtend 33

/-- `dmem_oob`: ea < 0 or ea >= MEM_WORDS. -/
def lsuOob (cfg : Config) (ea : BitVec 33) : Bool :=
  decide (ea.toInt < 0) || decide ((cfg.memWords : Int) ≤ ea.toInt)

/-- The load/store unit (R133). The table leaves `dmem_addr` open when `dmem_oob` is 1. DESIGN CHOICE (log 23): it is the
low 32 bits of `ea` then too; no access uses it, since both enables are 0. -/
def lsuUnit (cfg : Config) (va vb off32 : Word) (memRe memWe : Bool) : LsuOut where
  ea := lsuEa va off32
  dmemOob := lsuOob cfg (lsuEa va off32)
  dmemAddr := (lsuEa va off32).setWidth 32
  dmemRe := memRe && !lsuOob cfg (lsuEa va off32)
  dmemWe := memWe && !lsuOob cfg (lsuEa va off32)
  dmemWdata := vb

/-! ## Branch and jump resolution: R143 -/

/-- `pc_next`. -/
def pcNext (c : ControlWord) (eq : Bool) (ra rb : Reg) (va pc1 off32 : Word) : Word :=
  if c.branch then (if eq then pc1 + off32 else pc1)
  else if c.jump then (if ra = rb then pc1 else va)
  else pc1

/-! ## Register file write port: R124 -/

/-- The write address, by `wsel`. -/
def writeAddress (d : DecoderOut) : Option Reg :=
  match d.control.wsel with
  | some .rd => some d.rd
  | some .rb => some d.rb
  | none => none

/-- `wdata`, by `wsrc`. -/
def writeData (d : DecoderOut) (alu : Option Word) (dmemRdata : Option Word) (pc1 : Word) : Option Word :=
  match d.control.wsrc with
  | some .alu => alu
  | some .mem => dmemRdata
  | some .pc1 => some pc1
  | none => none

/-- The one write port: at most one register is written. -/
def writePort (s : State) (we : Bool) (address : Option Reg) (data : Option Word) : State :=
  match we, address, data with
  | true, some r, some v => s.setReg r v
  | _, _, _ => s

/-! ## One step of the blocks: R109 -/

/-- The data side: the fault the load/store unit raises, or the word it reads (none when it reads nothing). -/
def dataSide (s : State) (c : ControlWord) (l : LsuOut) : Except Raised (Option Word) :=
  if l.dmemOob && c.memRe then .error ⟨.outOfRangeLoad, l.ea.toInt⟩
  else if l.dmemOob && c.memWe then .error ⟨.outOfRangeStore, l.ea.toInt⟩
  else if l.dmemRe then
    match s.readable l.dmemAddr.toNat with
    | some v => .ok (some v)
    | none => .error ⟨.uninitializedReadLoad, (l.dmemAddr.toNat : Int)⟩
  else .ok none

/-- The end of a completing step (R109): the writes, `pc <- pc_next`, `count <- count + 1`, `run <- halted` if halt. -/
def commit (s : State) (d : DecoderOut) (l : LsuOut) (va vb pc1 : Word) (rdata : Option Word) : State :=
  let w := writePort s d.control.regWe (writeAddress d) (writeData d (aluOut d.control.aluOp va vb) rdata pc1)
  { w with
    mem := if l.dmemWe then s.mem.put l.dmemAddr.toNat l.dmemWdata else s.mem
    pc := pcNext d.control (aluEq va vb) d.ra d.rb va pc1 d.off32
    count := s.count + 1
    run := if d.control.halt then .halted else s.run }

/-- Execute one fetched word. -/
def executeDatapath (s : State) (instr : Word) : State :=
  let d := decoderUnit s.cfg.highBitsCheck instr
  if d.unknownOpcode then s.takeFault ⟨.unknownOpcode, unsigned instr⟩
  else
    let va := s.reg d.ra
    let vb := s.reg d.rb
    let l := lsuUnit s.cfg va vb d.off32 d.control.memRe d.control.memWe
    match dataSide s d.control l with
    | .error r => s.takeFault r
    | .ok rdata => commit s d l va vb (s.pc + 1#32) rdata

/-- `fetch_oob` of R109. -/
def fetchOob (s : State) : Bool := decide (s.cfg.memWords ≤ s.pc.toNat)

/-- One step of the block diagram (R106, R109). -/
def stepDatapath (s : State) : Host.Outcome State Fault Refusal :=
  match s.run with
  | .halted => .fault .coreHalted
  | .faulted record => .fault (.coreFaulted record)
  | .running =>
    if fetchOob s then .next (s.takeFault ⟨.outOfRangeFetch, unsigned s.pc⟩)
    else
      match s.readable s.pc.toNat with
      | none => .next (s.takeFault ⟨.uninitializedReadFetch, unsigned s.pc⟩)
      | some instr => .next (executeDatapath s instr)

end Sys2Proof.Machine
end

