-- ==== Sys2Proof/Machine/Loader.lean ====
section
/-! DEFINITION. Loading an image and reset (70_reset_and_hazards.md R180 to R182). The file loader is host software
(00_scope.md R5); its effect on the reset state is the core's. -/

namespace Sys2Proof.Machine

/-- Why a load fails (R181, R182). No step is taken and no run state exists then. -/
inductive LoadError where
  /-- an image of more than MEM_WORDS words -/
  | imageTooLong
  /-- a line that is no decimal integer in [-2^31, 2^32-1] -/
  | malformedMachineWord
  /-- an unreadable file -/
  | fileOpenFailure
deriving DecidableEq, Repr

/-- `mem[k] <- w[k]`, `written[k] <- true`, for consecutive k from `start` (R181). -/
def imageCells (start : Nat) : List Word → Memory
  | [] => []
  | w :: rest => (start, w) :: imageCells (start + 1) rest

/-- Reset with an image (R33, R180, R181): the only way out of `halted` or `faulted`. `drawn` is the model's own and any
value of it is a reset state (log 15). -/
def State.boot (cfg : Config) (drawn : Nat) (image : List Word) : Except LoadError State :=
  if image.length ≤ cfg.memWords then
    .ok { State.reset with mem := imageCells 0 image, cfg := cfg, drawn := drawn }
  else .error .imageTooLong

/-- One line of the machine-code file (R182, D16). -/
def readMachineWord (line : List Char) : Except LoadError Word :=
  match readInteger line with
  | none => .error .malformedMachineWord
  | some v =>
    match wordOfInteger v with
    | none => .error .malformedMachineWord
    | some w => .ok w

/-- The lines of the machine-code file, one word each (R181). -/
def readMachineWords : List (List Char) → Except LoadError (List Word)
  | [] => .ok []
  | line :: rest =>
    match readMachineWord line with
    | .error e => .error e
    | .ok w =>
      match readMachineWords rest with
      | .error e => .error e
      | .ok ws => .ok (w :: ws)

/-- Loading a machine-code file and resetting the core; `none` is a file that cannot be read (R182). -/
def State.load (cfg : Config) (drawn : Nat) (file : Option (List (List Char))) : Except LoadError State :=
  match file with
  | none => .error .fileOpenFailure
  | some lines =>
    match readMachineWords lines with
    | .error e => .error e
    | .ok image => State.boot cfg drawn image

end Sys2Proof.Machine
end

