-- ==== Sys2Proof/Safety.lean ====
section
/-! DEFINITION. What the host observes, how a run ends, and the invariant of the machine (60_exceptions.md R163,
70_reset_and_hazards.md R184, R185). -/

namespace Sys2Proof.Machine

/-! ## What the host observes -/

/-- What is observed at halt (R184, R185). -/
structure HaltObservation where
  pc : Word
  x : Vector Word 8
  mem : Memory
  count : Nat
deriving DecidableEq, Repr

/-- The halted state, as the host reads it; nothing elsewhere. -/
def State.observeHalt (s : State) : Option HaltObservation :=
  match s.run with
  | .halted => some ⟨s.pc, s.x, s.mem, s.count⟩
  | .running => none
  | .faulted _ => none

/-- What is observed of a fault (R185): the record, registers and memory, never pc or count (R163). -/
structure FaultObservation where
  record : FaultRecord
  x : Vector Word 8
  mem : Memory
deriving DecidableEq, Repr

/-- The faulted state, as the host reads it; nothing elsewhere. -/
def State.observeFault (s : State) : Option FaultObservation :=
  match s.run with
  | .faulted record => some ⟨record, s.x, s.mem⟩
  | .running => none
  | .halted => none

/-- The core has taken a fault. -/
def State.isFaulted (s : State) : Bool :=
  match s.run with
  | .faulted _ => true
  | .running => false
  | .halted => false

/-! ## How a run ends (R184) -/

/-- Some number of steps leads from `s` to `t`. -/
def Reaches (s t : State) : Prop := ∃ k, Sys2Proof.core.run k s = .next t

/-- A successful end: the run reaches a halted state. A faulted state is never one (R184). -/
def EndsHalted (s t : State) : Prop := Reaches s t ∧ t.run = .halted

/-- A failed end: the run reaches a faulted state. -/
def EndsFaulted (s t : State) : Prop := Reaches s t ∧ t.isFaulted = true

/-! ## The invariant -/

/-- The word at `ia` decodes to `i`. -/
def State.holdsInstr (s : State) (ia : Word) (i : Instr) : Prop :=
  ia.toNat < s.cfg.memWords ∧ ∃ w, s.readable ia.toNat = some w ∧ decode s.cfg.highBitsCheck w = .ok i

/-- The fault record is true of the state: its cause is one that the instruction at `ia` has, with the registers and the
memory as they stand (R160), which the fault left unchanged (R163). -/
def State.explains (s : State) (r : FaultRecord) : Prop :=
  match r.cause with
  | .outOfRangeFetch => s.cfg.memWords ≤ r.ia.toNat ∧ r.info = unsigned r.ia
  | .uninitializedReadFetch =>
    r.ia.toNat < s.cfg.memWords ∧ s.readable r.ia.toNat = none ∧ r.info = unsigned r.ia
  | .unknownOpcode =>
    r.ia.toNat < s.cfg.memWords ∧ s.cfg.highBitsCheck = .strict ∧
      ∃ w, s.readable r.ia.toNat = some w ∧ highBits w ≠ 0#7 ∧ r.info = unsigned w
  | .outOfRangeLoad =>
    ∃ regA regB off32, s.holdsInstr r.ia (.lw regA regB off32) ∧
      r.info = signed (s.reg regA) + signed off32 ∧ (r.info < 0 ∨ (s.cfg.memWords : Int) ≤ r.info)
  | .outOfRangeStore =>
    ∃ regA regB off32, s.holdsInstr r.ia (.sw regA regB off32) ∧
      r.info = signed (s.reg regA) + signed off32 ∧ (r.info < 0 ∨ (s.cfg.memWords : Int) ≤ r.info)
  | .uninitializedReadLoad =>
    ∃ regA regB off32, s.holdsInstr r.ia (.lw regA regB off32) ∧
      r.info = signed (s.reg regA) + signed off32 ∧ 0 ≤ r.info ∧ r.info < (s.cfg.memWords : Int) ∧
      s.readable r.info.toNat = none

/-- The invariant of the machine: the parameters are legal (R6), memory keeps its canonical form and lists only words
that exist (R30), and a fault record is true of the state (R160, R163). -/
structure State.Inv (s : State) : Prop where
  cfg_legal : s.cfg.wf
  mem_canonical : s.mem.wf
  mem_exists : ∀ c ∈ s.mem, c.1 < s.cfg.memWords
  record_true : ∀ r, s.run = .faulted r → s.explains r

/-- Two states that differ at most in which words are `written` while every word reads the same (R31). After a fault pc
and count are unspecified (R163) and are not compared, and neither is the model's own draw counter. -/
structure SameReads (s t : State) : Prop where
  x : s.x = t.x
  run : s.run = t.run
  cfg : s.cfg = t.cfg
  readable : ∀ a, s.readable a = t.readable a
  pc : s.isFaulted = false → s.pc = t.pc
  count : s.isFaulted = false → s.count = t.count

end Sys2Proof.Machine
end

