-- ==== Sys2Proof/Certificates/Slice0/Obligations.lean ====
section
/-! DEFINITION. The statements for the provers, from the numbered rules of spec/. D<n> is a decision of
92_eei_decisions.md, the spec's own choice; log <n> is notes/assumptions/<n>.md. -/

open Sys2Proof Sys2Proof.Machine

/-! ## Encoding -/

/-- The words of 95_test_vectors.md V1.8, one per opcode, decode to the instructions they stand for.
Rests on the spec's decisions D1 and D2 (log 6). -/
def Obligations.SpecWordsDecode : Prop :=
  decode .strict 0x000A0003#32 = .ok (.add 1 2 3) ∧
  decode .strict 0x00780007#32 = .ok (.nor 7 0 7) ∧
  decode .strict 0x00AE8000#32 = .ok (.lw 5 6 (BitVec.ofInt 32 (-32768))) ∧
  decode .strict 0x00C77FFF#32 = .ok (.sw 0 7 32767#32) ∧
  decode .strict 0x011CFFFF#32 = .ok (.beq 3 4 (BitVec.ofInt 32 (-1))) ∧
  decode .strict 0x017B0000#32 = .ok (.jalr 7 3) ∧
  decode .strict 0x01800000#32 = .ok .halt ∧
  decode .strict 0x01C00000#32 = .ok .noop

/-- R77: decoding an encoded instruction gives it back, for all operands in range and under both settings of
HIGH_BITS_CHECK; encoder output never sets bits 31:25 (R77's own inference from R68 and R76); and the law does not hold
for `.fill` words, one of which decodes to nothing under `strict`: the parameter and that refusal are D3 (log 5). -/
def Obligations.EncodeThenDecodeIsIdentity : Prop :=
  (∀ check i, i.wellFormed = true → decode check (encode i) = .ok i ∧ highBits (encode i) = 0#7) ∧
  ∃ v w, checkFill v = .ok w ∧ ∀ i, decode .strict w ≠ .ok i

/-- The other direction (R66 to R68, R76): a word decodes to an instruction exactly when the instruction is well formed
and the bits its format uses are those of the encoding, bits 31:25 being zero under `strict` and any under `ignore`.
So a word that differs from encoder output in unused bits alone decodes alike. Rests on D3 and D4 (log 5, 7). -/
def Obligations.DecodeAcceptsExactlyTheEncodings : Prop :=
  ∀ check w i, decode check w = .ok i ↔
    i.wellFormed = true ∧ (check = .strict → highBits w = 0#7) ∧ w &&& i.opcode.format.usedBits = encode i

/-- Where the fields sit and how they are read, in arithmetic on the word's number (R62 to R65, R68 to R71): each
register field is 3 bits masked in every class, jalr's regA included, and the offset is signed and not scaled.
Rests on D1, D2 and D5 (log 6, 7). -/
def Obligations.DecodedOperandsAreTheWordsFields : Prop :=
  ∀ check (w : Word) i, decode check w = .ok i →
    let opcode := w.toNat / 2 ^ 22 % 8
    let regA := w.toNat / 2 ^ 19 % 8
    let regB := w.toNat / 2 ^ 16 % 8
    let destReg := w.toNat % 8
    let offset : Int := if w.toNat % 2 ^ 16 < 2 ^ 15 then (w.toNat % 2 ^ 16 : Nat) else (w.toNat % 2 ^ 16 : Nat) - 2 ^ 16
    match i with
    | .add a b d => opcode = 0 ∧ a.val = regA ∧ b.val = regB ∧ d.val = destReg
    | .nor a b d => opcode = 1 ∧ a.val = regA ∧ b.val = regB ∧ d.val = destReg
    | .lw a b off32 => opcode = 2 ∧ a.val = regA ∧ b.val = regB ∧ signed off32 = offset
    | .sw a b off32 => opcode = 3 ∧ a.val = regA ∧ b.val = regB ∧ signed off32 = offset
    | .beq a b off32 => opcode = 4 ∧ a.val = regA ∧ b.val = regB ∧ signed off32 = offset
    | .jalr a b => opcode = 5 ∧ a.val = regA ∧ b.val = regB
    | .halt => opcode = 6
    | .noop => opcode = 7

/-- R66, R74: under `strict` a word is refused, with UnknownOpcode of that word, exactly when its number is 2^25 or more
(bits 31:25 not all zero); under `ignore` no word is refused and those bits do not matter. Rests on D3 (log 5). -/
def Obligations.OnlyHighBitsMakeAWordIllegal : Prop :=
  ∀ w : Word,
    (2 ^ 25 ≤ w.toNat → decode .strict w = .error (.unknownOpcode w)) ∧
    (w.toNat < 2 ^ 25 → ∃ i, decode .strict w = .ok i ∧ decode .ignore w = .ok i) ∧
    (∃ i, decode .ignore w = .ok i) ∧
    decode .ignore w = decode .ignore (w &&& 0x01FFFFFF#32)

/-! ## Memory -/

/-- R44: a store in range gives its word the value and makes it written, changes no other word, and changes nothing
else; the value is then what a read of that word answers. -/
def Obligations.MemWriteSetsOneWord : Prop :=
  ∀ (s : State) (a : Int) (v : Word), 0 ≤ a → a < (s.cfg.memWords : Int) →
    ∃ t, s.memWrite a v = .ok t ∧
      t.mem.cell a.toNat = some v ∧ t.written a.toNat = true ∧
      (∀ kind, t.memRead kind a = .ok v) ∧
      (∀ k : Nat, (k : Int) ≠ a → t.mem.cell k = s.mem.cell k ∧ t.written k = s.written k) ∧
      t.x = s.x ∧ t.pc = s.pc ∧ t.count = s.count ∧ t.run = s.run ∧ t.cfg = s.cfg

/-- R42, R43: what a read answers, in every case: OutOfRange before the access, UninitializedRead of a word that holds
no value under `fault`, 0 for it under `zero`, and else the word. The last two cases rest on D11 (log 3). -/
def Obligations.MemReadAnswers : Prop :=
  ∀ (s : State) (kind : ReadKind) (a : Int),
    s.memRead kind a =
      if a < 0 ∨ (s.cfg.memWords : Int) ≤ a then
        .error ⟨match kind with | .fetch => .outOfRangeFetch | .load => .outOfRangeLoad, a⟩
      else
        match s.mem.cell a.toNat, s.cfg.unloadedRead with
        | some v, _ => .ok v
        | none, .zero => .ok 0#32
        | none, .fault =>
          .error ⟨match kind with | .fetch => .uninitializedReadFetch | .load => .uninitializedReadLoad, a⟩

/-- The canonical form does its work: two memories in it that hold the same in every cell are the same data
(the model's representation, log 2). -/
def Obligations.EqualCellsAreEqualMemory : Prop :=
  ∀ m n : Memory, m.wf → n.wf → (∀ a, m.cell a = n.cell a) → m = n

/-- R53: a store is seen by every later fetch of its address for as long as memory is as the store left it, the very
next fetch included. Rests on D9 through the address (log 9). -/
def Obligations.StoreIsSeenByFetch : Prop :=
  ∀ (s t u : State) (a b : Reg) (off32 : Word),
    exec (.sw a b off32) s = .next t → t.isFaulted = false → s.run = .running →
    u.mem = t.mem → u.cfg = t.cfg → unsigned u.pc = effectiveAddress (s.reg a) off32 →
    u.fetch = .ok (s.reg b)

/-- R41: when MEM_WORDS <= 2^31 - 2^15, a 32-bit wrapping adder whose sum is read as signed gives the same verdict and the
same in-range address as the exact sum. Rests on D9 (log 9). -/
def Obligations.WrappingAdderSuffices : Prop :=
  ∀ (memWords : Nat) (base off32 : Word), memWords ≤ 2 ^ 31 - 2 ^ 15 → offsetFits off32 = true →
    ((0 ≤ effectiveAddress base off32 ∧ effectiveAddress base off32 < memWords) ↔
      (0 ≤ signed (base + off32) ∧ signed (base + off32) < memWords)) ∧
    (0 ≤ effectiveAddress base off32 → effectiveAddress base off32 < memWords →
      signed (base + off32) = effectiveAddress base off32)

/-- R133: the exact sum lies in [-2^31 - 2^15, 2^31 + 2^15 - 2], and the 33-bit adder of the load/store unit computes it.
Rests on D9 and D21 (log 9, 23). -/
def Obligations.LsuAdderIsExact : Prop :=
  ∀ va off32 : Word, offsetFits off32 = true →
    (lsuEa va off32).toInt = effectiveAddress va off32 ∧
    -2 ^ 31 - 2 ^ 15 ≤ effectiveAddress va off32 ∧ effectiveAddress va off32 ≤ 2 ^ 31 + 2 ^ 15 - 2

/-! ## Instructions: result, frame, completion -/

/-- R120: add writes the sum modulo 2^32 of the old sources, destReg being any register, register 0 and a source
included; it completes in every state and changes nothing else. Wrapping is D6 (log 8). -/
def Obligations.AddWritesTheSum : Prop :=
  ∀ (a b d : Reg) (s : State), ∃ t, exec (.add a b d) s = .next t ∧
    (t.reg d).toNat = ((s.reg a).toNat + (s.reg b).toNat) % 2 ^ 32 ∧
    (∀ q, q ≠ d → t.reg q = s.reg q) ∧ t.pc = s.pc + 1#32 ∧ (∀ k, t.mem.cell k = s.mem.cell k) ∧
    t.count = s.count + 1 ∧ t.run = s.run ∧ t.cfg = s.cfg ∧ t.drawn = s.drawn

/-- R121: nor writes, in every bit, NOT of the OR of the old sources' bits; the word is
`(1 << 22) | (regA << 19) | (regB << 16) | destReg`; it completes in every state and changes nothing else. -/
def Obligations.NorWritesNotOr : Prop :=
  ∀ (a b d : Reg) (s : State),
    (encode (.nor a b d)).toNat = 1 * 2 ^ 22 + a.val * 2 ^ 19 + b.val * 2 ^ 16 + d.val ∧
    ∃ t, exec (.nor a b d) s = .next t ∧
      (∀ k, k < 32 → (t.reg d).getLsbD k = !((s.reg a).getLsbD k || (s.reg b).getLsbD k)) ∧
      (∀ q, q ≠ d → t.reg q = s.reg q) ∧ t.pc = s.pc + 1#32 ∧ (∀ k, t.mem.cell k = s.mem.cell k) ∧
      t.count = s.count + 1 ∧ t.run = s.run ∧ t.cfg = s.cfg ∧ t.drawn = s.drawn

/-- R130: lw of a word that exists and reads as v writes v to regB, the address being computed from the old base even
when regA = regB; nothing else changes. The signed base is D9, the reading of unlisted words D11 (log 9, 3). -/
def Obligations.LwLoadsTheWord : Prop :=
  ∀ (a b : Reg) (off32 : Word) (s : State) (v : Word),
    0 ≤ signed (s.reg a) + signed off32 → signed (s.reg a) + signed off32 < s.cfg.memWords →
    s.readable (signed (s.reg a) + signed off32).toNat = some v →
    ∃ t, exec (.lw a b off32) s = .next t ∧
      t.reg b = v ∧ (∀ q, q ≠ b → t.reg q = s.reg q) ∧ t.pc = s.pc + 1#32 ∧ (∀ k, t.mem.cell k = s.mem.cell k) ∧
      t.count = s.count + 1 ∧ t.run = s.run ∧ t.cfg = s.cfg ∧ t.drawn = s.drawn

/-- R130, R161: where lw faults. Out of range: cause 3 and the exact EA. In range but of a word that reads as nothing:
cause 6. No register and no memory word changes. The record is D12, the second fault D11 (log 13, 3). -/
def Obligations.LwFaults : Prop :=
  ∀ (a b : Reg) (off32 : Word) (s : State),
    let ea := signed (s.reg a) + signed off32
    (ea < 0 ∨ s.cfg.memWords ≤ ea →
      ∃ t, exec (.lw a b off32) s = .next t ∧ t.run = .faulted ⟨.outOfRangeLoad, s.pc, ea⟩ ∧
        t.x = s.x ∧ t.mem = s.mem ∧ t.cfg = s.cfg) ∧
    (0 ≤ ea → ea < s.cfg.memWords → s.readable ea.toNat = none →
      ∃ t, exec (.lw a b off32) s = .next t ∧ t.run = .faulted ⟨.uninitializedReadLoad, s.pc, ea⟩ ∧
        t.x = s.x ∧ t.mem = s.mem ∧ t.cfg = s.cfg)

/-- R131: sw in range stores regB's word at EA and changes no register and no other word; it completes whether or not
the word was written before. The signed base is D9 (log 9). -/
def Obligations.SwStoresTheWord : Prop :=
  ∀ (a b : Reg) (off32 : Word) (s : State),
    0 ≤ effectiveAddress (s.reg a) off32 → effectiveAddress (s.reg a) off32 < s.cfg.memWords →
    ∃ t, exec (.sw a b off32) s = .next t ∧
      (∀ k : Nat, effectiveAddress (s.reg a) off32 = k → t.mem.cell k = some (s.reg b)) ∧
      (∀ k : Nat, effectiveAddress (s.reg a) off32 ≠ k → t.mem.cell k = s.mem.cell k) ∧
      (∀ q, t.reg q = s.reg q) ∧ t.pc = s.pc + 1#32 ∧
      t.count = s.count + 1 ∧ t.run = s.run ∧ t.cfg = s.cfg ∧ t.drawn = s.drawn

/-- R131, R161: where sw faults: exactly out of range, with cause 4 and the exact EA; memory and registers stay. sw never
raises another fault, UninitializedRead included. The record is D12 (log 13). -/
def Obligations.SwFaults : Prop :=
  ∀ (a b : Reg) (off32 : Word) (s : State),
    (signed (s.reg a) + signed off32 < 0 ∨ s.cfg.memWords ≤ signed (s.reg a) + signed off32 →
    ∃ t, exec (.sw a b off32) s = .next t ∧
      t.run = .faulted ⟨.outOfRangeStore, s.pc, signed (s.reg a) + signed off32⟩ ∧
      t.x = s.x ∧ t.mem = s.mem ∧ t.cfg = s.cfg) ∧
    (∀ (t : State) (r : FaultRecord), s.run = .running → exec (.sw a b off32) s = .next t → t.run = .faulted r →
      r.cause = .outOfRangeStore ∧
        (signed (s.reg a) + signed off32 < 0 ∨ s.cfg.memWords ≤ signed (s.reg a) + signed off32))

/-- R140, R24: beq goes to (ia + 1 + offset) mod 2^32 when the two words are equal and to ia + 1 otherwise; it completes
in every state, raises nothing and changes nothing else. The modulus is D8 (log 10). -/
def Obligations.BeqBranchesOnEquality : Prop :=
  ∀ (a b : Reg) (off32 : Word) (s : State), ∃ t, exec (.beq a b off32) s = .next t ∧
    ((t.pc.toNat : Int) =
      (if s.reg a = s.reg b then (s.pc.toNat : Int) + 1 + signed off32 else (s.pc.toNat : Int) + 1) % 2 ^ 32) ∧
    (∀ q, t.reg q = s.reg q) ∧ (∀ k, t.mem.cell k = s.mem.cell k) ∧
    t.count = s.count + 1 ∧ t.run = s.run ∧ t.cfg = s.cfg ∧ t.drawn = s.drawn

/-- R141: jalr writes ia + 1 to regB and goes to regA as read after that write: to the old x[regA] when the registers
differ, to ia + 1 when they are the same. The same-register case is D26 (log 11). -/
def Obligations.JalrLinksThenJumps : Prop :=
  ∀ (a b : Reg) (s : State), ∃ t, exec (.jalr a b) s = .next t ∧
    t.reg b = s.pc + 1#32 ∧ (∀ q, q ≠ b → t.reg q = s.reg q) ∧
    t.pc = (if a = b then s.pc + 1#32 else s.reg a) ∧ (∀ k, t.mem.cell k = s.mem.cell k) ∧
    t.count = s.count + 1 ∧ t.run = s.run ∧ t.cfg = s.cfg ∧ t.drawn = s.drawn

/-- R150: halt is the word 0x01800000; pc becomes ia + 1, count includes the halt itself, no register or memory word
changes, and the halted core takes no further step. -/
def Obligations.HaltStopsTheCore : Prop :=
  encode .halt = 0x01800000#32 ∧
  ∀ s : State, ∃ t, exec .halt s = .next t ∧ t.run = .halted ∧ t.pc = s.pc + 1#32 ∧ t.count = s.count + 1 ∧
    (∀ q, t.reg q = s.reg q) ∧ (∀ k, t.mem.cell k = s.mem.cell k) ∧ t.cfg = s.cfg ∧ t.drawn = s.drawn ∧
    (∀ u, step t ≠ .next u) ∧ t.observeHalt = some ⟨t.pc, t.x, t.mem, t.count⟩

/-- R151: noop is the word 0x01C00000, and so decodes every word 0x01C00000 through 0x01FFFFFF, and under `ignore` every
word whose bits 24:22 are 111; it advances pc, is counted, and has no other effect. -/
def Obligations.NoopOnlyAdvances : Prop :=
  encode .noop = 0x01C00000#32 ∧
  (∀ check (w : Word), 0x01C00000 ≤ w.toNat → w.toNat ≤ 0x01FFFFFF → decode check w = .ok .noop) ∧
  (∀ w : Word, w.extractLsb 24 22 = 0b111#3 → decode .ignore w = .ok .noop) ∧
  ∀ s : State, ∃ t, exec .noop s = .next t ∧ t.pc = s.pc + 1#32 ∧ t.count = s.count + 1 ∧
    (∀ q, t.reg q = s.reg q) ∧ (∀ k, t.mem.cell k = s.mem.cell k) ∧ t.run = s.run ∧ t.cfg = s.cfg ∧ t.drawn = s.drawn

/-! ## The step -/

/-- R101 to R104, R106: when the word at the pc decodes to i, the step is exec of i at that state: the pc increment and
the count are part of exec (log 19), and the step adds nothing around it. -/
def Obligations.StepRunsTheDecodedInstruction : Prop :=
  ∀ (s : State) (w : Word) (i : Instr), s.run = .running → s.pc.toNat < s.cfg.memWords →
    s.readable s.pc.toNat = some w → decode s.cfg.highBitsCheck w = .ok i → step s = exec i s

/-- R100: a step happens only when the core is running, a core that is halted or faulted takes none, and a running core
always takes one, which executes exactly one instruction or ends in a fault of its fetch or decoding (R101, R103, R162).
That taking no step is having no next state is log 17 (DEDUCED); that a fault is a next state that is faulted is D12
(log 13). -/
def Obligations.OnlyARunningCoreSteps : Prop :=
  (∀ s : State, (∃ t, step s = .next t) ↔ s.run = .running) ∧
  ∀ s : State, s.run = .running →
    (∃ i, s.fetchDecode = .ok i ∧ step s = exec i s) ∨
    (∃ t, s.fetchDecode.isOk = false ∧ step s = .next t ∧ t.isFaulted = true)

/-- R101, R103: the faults of fetch and decode, each with its record, registers and memory as before. The records are D12,
the second fault D11, the third D3 (log 13, 3, 5). -/
def Obligations.FetchAndDecodeFaults : Prop :=
  ∀ s : State, s.run = .running →
    (s.cfg.memWords ≤ s.pc.toNat →
      ∃ t, step s = .next t ∧ t.run = .faulted ⟨.outOfRangeFetch, s.pc, s.pc.toNat⟩ ∧
        t.x = s.x ∧ t.mem = s.mem ∧ t.cfg = s.cfg) ∧
    (s.pc.toNat < s.cfg.memWords → s.mem.cell s.pc.toNat = none → s.cfg.unloadedRead = .fault →
      ∃ t, step s = .next t ∧ t.run = .faulted ⟨.uninitializedReadFetch, s.pc, s.pc.toNat⟩ ∧
        t.x = s.x ∧ t.mem = s.mem ∧ t.cfg = s.cfg) ∧
    (∀ w, s.pc.toNat < s.cfg.memWords → s.readable s.pc.toNat = some w → s.cfg.highBitsCheck = .strict →
      2 ^ 25 ≤ w.toNat →
      ∃ t, step s = .next t ∧ t.run = .faulted ⟨.unknownOpcode, s.pc, w.toNat⟩ ∧
        t.x = s.x ∧ t.mem = s.mem ∧ t.cfg = s.cfg)

/-- R105: a step that completes, that is, does not end in a fault, adds exactly 1 to count, the final halt included. -/
def Obligations.CompletedStepsAreCounted : Prop :=
  (∀ s t : State, step s = .next t → t.isFaulted = false → t.count = s.count + 1) ∧
  (∀ s t : State, step s = .next t → t.run = .halted → t.count = s.count + 1)

/-- R164: which fault a step ends in, if any: the first in the order fetch out of range, fetch of an unwritten word,
unknown opcode, data access out of range, load of an unwritten word. The order is D13, the codes D12 (log 16, 13). -/
def Obligations.FirstFaultInOrder : Prop :=
  ∀ s t : State, step s = .next t →
    (∀ r, t.run = .faulted r → r.ia = s.pc) ∧
    (match t.run with | .faulted r => some (r.cause.code, r.info) | _ => none) =
      if s.cfg.memWords ≤ s.pc.toNat then some (2, (s.pc.toNat : Int))
      else
        match s.readable s.pc.toNat with
        | none => some (5, (s.pc.toNat : Int))
        | some w =>
          match decode s.cfg.highBitsCheck w with
          | .error _ => some (1, (w.toNat : Int))
          | .ok (.lw a _ off32) =>
            let ea := signed (s.reg a) + signed off32
            if ea < 0 ∨ s.cfg.memWords ≤ ea then some (3, ea)
            else if s.readable ea.toNat = none then some (6, ea) else none
          | .ok (.sw a _ off32) =>
            let ea := signed (s.reg a) + signed off32
            if ea < 0 ∨ s.cfg.memWords ≤ ea then some (4, ea) else none
          | .ok _ => none

/-! ## Whole-machine rules -/

/-- R163: after a fault the registers and memory are exactly as before the faulting step, and the record names the
faulting instruction's address; the parameters stay too. Nothing is said of pc and count (D12, log 14). -/
def Obligations.FaultsArePrecise : Prop :=
  ∀ (s t : State) (r : FaultRecord), step s = .next t → t.run = .faulted r →
    t.x = s.x ∧ t.mem = s.mem ∧ t.cfg = s.cfg ∧ r.ia = s.pc ∧ t.observeFault = some ⟨r, s.x, s.mem⟩

/-- R22: a step changes at most the one register that the table of R22 says its instruction writes. -/
def Obligations.RegisterWritesFollowTheTable : Prop :=
  ∀ (s t : State) (q : Reg), step s = .next t → t.reg q ≠ s.reg q →
    ∃ i, s.fetchDecode = .ok i ∧
      match i with
      | .add _ _ d => q = d
      | .nor _ _ d => q = d
      | .lw _ b _ => q = b
      | .sw _ _ _ => False
      | .beq _ _ _ => False
      | .jalr _ b => q = b
      | .halt => False
      | .noop => False

/-- R22, R40, R44: only sw changes memory, and only the word at its effective address, which becomes regB's word.
The address is D9 (log 9). -/
def Obligations.OnlyStoresChangeMemory : Prop :=
  ∀ (s t : State) (k : Nat), step s = .next t → t.mem.cell k ≠ s.mem.cell k →
    ∃ a b off32, s.fetchDecode = .ok (.sw a b off32) ∧ (k : Int) = effectiveAddress (s.reg a) off32 ∧
      k < s.cfg.memWords ∧ t.mem.cell k = some (s.reg b)

/-- R152, R162: halt is the only instruction that affects the run state: a step ends halted exactly when its instruction is
halt, and otherwise the core is still running or has taken a fault. -/
def Obligations.OnlyHaltHalts : Prop :=
  ∀ s t : State, step s = .next t →
    (t.run = .halted ↔ s.fetchDecode = .ok .halt) ∧ (t.run = .running ∨ t.run = .halted ∨ t.isFaulted = true)

/-- R25: pc never wraps to a valid address: when a beq leaves a pc inside memory, that pc is the exact sum. Rests on D8
(log 10). -/
def Obligations.BranchesNeverWrapIntoMemory : Prop :=
  ∀ (s t : State) (a b : Reg) (off32 : Word), s.cfg.wf → s.fetchDecode = .ok (.beq a b off32) →
    exec (.beq a b off32) s = .next t → t.pc.toNat < t.cfg.memWords →
    (t.pc.toNat : Int) = (s.pc.toNat : Int) + 1 + (if s.reg a = s.reg b then signed off32 else 0)

/-- 00_scope.md R6: the parameters are fixed for the machine, whatever it runs (the model holds them in State, log 1). -/
def Obligations.ParametersNeverChange : Prop :=
  ∀ s t : State, step s = .next t → t.cfg = s.cfg

/-- The invariant: legal parameters, memory in canonical form listing only words that exist, and a fault record that is
true of the state, are kept by every step. Rests on D12 and D13 in the record (log 2, 13, 16). -/
def Obligations.InvariantIsKept : Prop :=
  ∀ s t : State, s.Inv → step s = .next t → t.Inv

/-- The invariant holds at reset. -/
def Obligations.InvariantAtReset : Prop := State.reset.Inv

/-- R31: no program can observe `written`: in two states that differ only in which words are written while every word
reads the same, the step does the same, and what it leaves differs again only so. (The fault that does show `written`
is excluded by every word reading the same, log 2.) -/
def Obligations.WrittenIsNotObservable : Prop :=
  ∀ s t : State, SameReads s t →
    match step s, step t with
    | .next s', .next t' => SameReads s' t'
    | .fault r, .fault q => r = q
    | _, _ => False

/-- D3, D11: the default parameters only ever turn a step into a fault of their own: a step that completes under any
parameters does the same with the checks off, and one that takes OutOfRange takes the same fault. -/
def Obligations.ChecksOnlyAddFaults : Prop :=
  ∀ s t : State, step s = .next t →
    let off : Config := ⟨s.cfg.memWords, .zero, .ignore⟩
    (t.isFaulted = false → step { s with cfg := off } = .next { t with cfg := off }) ∧
    (∀ r, t.run = .faulted r →
      r.cause = .outOfRangeFetch ∨ r.cause = .outOfRangeLoad ∨ r.cause = .outOfRangeStore →
      ∃ u, step { s with cfg := off } = .next u ∧ u.run = .faulted r ∧ u.x = t.x ∧ u.mem = t.mem)

/-- R27, R28: no instruction reads count: a step from the same state with n more counted does the same, and ends with n
more counted; if it faults it takes the same fault. The counter is unbounded by D22 (log 18). -/
def Obligations.CountIsNeverRead : Prop :=
  ∀ (s t : State) (n : Nat), step s = .next t →
    (t.isFaulted = false → step { s with count := s.count + n } = .next { t with count := t.count + n }) ∧
    (∀ r, t.run = .faulted r →
      ∃ u, step { s with count := s.count + n } = .next u ∧ u.run = .faulted r ∧ u.x = t.x ∧ u.mem = t.mem)

/-- The block diagram computes the step: decoder and control word (R72, R73), ALU and register file (R123, R124),
load/store unit (R133), branch unit (R143) and sequencer (R109) together do what R106 says, in every state with legal
parameters. The blocks are D21 (log 23). -/
def Obligations.DatapathRefinesTheStep : Prop :=
  ∀ s : State, s.cfg.wf → stepDatapath s = step s

/-! ## Runs -/

/-- R108: the core itself stops a running program only by halt or a fault: for every number of steps, either the core is
still running after them, or a halted or faulted state was reached by then; and a program can run forever. -/
def Obligations.OnlyHaltOrFaultEndsARun : Prop :=
  (∀ (s : State) (k : Nat), s.run = .running →
    (∃ t : State, Sys2Proof.core.run k s = .next t ∧ t.run = .running) ∨
    (∃ (j : Nat) (t : State), j ≤ k ∧ Sys2Proof.core.run j s = .next t ∧ (t.run = .halted ∨ t.isFaulted = true))) ∧
  ∃ s : State, s.run = .running ∧
    ∀ k : Nat, ∃ t : State, Sys2Proof.core.run k s = .next t ∧ t.run = .running ∧ t.count = s.count + k

/-- R184: a run has at most one successful end, and a run that ends in a fault has none: a faulted state is never a
successful end. -/
def Obligations.ARunEndsAtMostOnce : Prop :=
  ∀ s t : State, EndsHalted s t → (∀ u, EndsHalted s u → u = t) ∧ ∀ u, ¬ EndsFaulted s u

/-! ## Reset, loading, and the text forms -/

/-- R33, R180: what reset leaves, with the empty image and the default parameters. x[1..7] = 0 is D10 (log 12), the defaults
D3, D7, D11 (log 4, 5, 3). -/
def Obligations.ResetValues : Prop :=
  (∀ q, State.reset.reg q = 0#32) ∧ State.reset.pc = 0#32 ∧ State.reset.count = 0 ∧ State.reset.run = .running ∧
  (∀ a, State.reset.written a = false) ∧
  State.reset.cfg.memWords = 65536 ∧ State.reset.cfg.unloadedRead = .fault ∧ State.reset.cfg.highBitsCheck = .strict

/-- R180, R181: an image that fits is placed word for word from address 0, those words alone are written, everything else
is at its reset value, and the invariant holds; an image of more than MEM_WORDS words fails to load. The failure is
D16, the registers D10 (log 21, 12). -/
def Obligations.ImageIsLoadedFromAddressZero : Prop :=
  ∀ (cfg : Config) (drawn : Nat) (image : List Word),
    (image.length ≤ cfg.memWords →
      ∃ t, State.boot cfg drawn image = .ok t ∧
        (∀ k, t.mem.cell k = image[k]?) ∧ (∀ k, t.written k = decide (k < image.length)) ∧
        (∀ q, t.reg q = 0#32) ∧ t.pc = 0#32 ∧ t.count = 0 ∧ t.run = .running ∧ t.cfg = cfg ∧
        (cfg.wf → t.Inv)) ∧
    (cfg.memWords < image.length → State.boot cfg drawn image = .error .imageTooLong)

/-- R87, R182: every word the assembler writes is a line the loader reads back as that word. The decimal form is D16
(log 21). -/
def Obligations.MachineCodeLinesRoundTrip : Prop :=
  ∀ w : Word, readMachineWord (writeWord w) = .ok w

/-- R76: the encode contract: which operands each class accepts, the word it builds from them, and the failure otherwise.
When a register and an offset are both bad, only that it fails is said (log 22). The `.fill` range is D19 (log 22). -/
def Obligations.EncodeContract : Prop :=
  ∀ (op : Opcode) (a b c : Int),
    let regOk : Int → Prop := fun v => 0 ≤ v ∧ v ≤ 7
    let offOk : Prop := -32768 ≤ c ∧ c ≤ 32767
    let high : Int := op.tag.toNat * 2 ^ 22
    (op.format = .r →
      (regOk a ∧ regOk b ∧ regOk c → ∃ w, encodeChecked op [a, b, c] = .ok w ∧
        (w.toNat : Int) = high + a * 2 ^ 19 + b * 2 ^ 16 + c) ∧
      (¬(regOk a ∧ regOk b ∧ regOk c) → encodeChecked op [a, b, c] = .error .invalidRegister)) ∧
    (op.format = .i →
      (regOk a ∧ regOk b ∧ offOk → ∃ w, encodeChecked op [a, b, c] = .ok w ∧
        (w.toNat : Int) = high + a * 2 ^ 19 + b * 2 ^ 16 + c % 2 ^ 16) ∧
      (¬(regOk a ∧ regOk b) ∧ offOk → encodeChecked op [a, b, c] = .error .invalidRegister) ∧
      (regOk a ∧ regOk b ∧ ¬offOk → encodeChecked op [a, b, c] = .error .offsetOutOfRange) ∧
      (¬(regOk a ∧ regOk b) ∧ ¬offOk → ∃ e, encodeChecked op [a, b, c] = .error e)) ∧
    (op.format = .j →
      (regOk a ∧ regOk b → ∃ w, encodeChecked op [a, b] = .ok w ∧
        (w.toNat : Int) = high + a * 2 ^ 19 + b * 2 ^ 16) ∧
      (¬(regOk a ∧ regOk b) → encodeChecked op [a, b] = .error .invalidRegister)) ∧
    (op.format = .o → ∃ w, encodeChecked op [] = .ok w ∧ (w.toNat : Int) = high) ∧
    (-2 ^ 31 ≤ a ∧ a ≤ 2 ^ 32 - 1 → ∃ w, checkFill a = .ok w ∧ (w.toNat : Int) = a % 2 ^ 32) ∧
    (¬(-2 ^ 31 ≤ a ∧ a ≤ 2 ^ 32 - 1) → checkFill a = .error .offsetOutOfRange)

/-- R85: a label is bound to its line's 0-based position, every line counting; a name on two lines fails whichever comes
first; and an operand that is an undefined name fails. -/
def Obligations.LabelsAreLinePositions : Prop :=
  (∀ (lines : List SourceLine) (table : SymbolTable), collectLabels 0 lines = .ok table →
    ∀ (name : Token) (k : Nat), SymbolTable.find table name = some k ↔ (lines[k]?.bind SourceLine.label) = some name) ∧
  (∀ (lines : List SourceLine) (name : Token) (j k : Nat), j ≠ k →
    (lines[j]?.bind SourceLine.label) = some name → (lines[k]?.bind SourceLine.label) = some name →
    collectLabels 0 lines = .error .duplicateLabel) ∧
  (∀ (lines : List SourceLine) (table : SymbolTable) (resolve : Int → Int) (name : Token),
    collectLabels 0 lines = .ok table → readInteger name = none →
    (∀ k : Nat, (lines[k]?.bind SourceLine.label) ≠ some name) → literalOrLabel table resolve name = .error .undefinedLabel)
end

