-- ==== Sys2Proof/Laws/Encoding.lean ====
section
/-! SUPPORT. The fields of an encoded word, piece by piece. -/

namespace Sys2Proof

/-- A tag names the opcode it is the tag of (R60). -/
@[simp] theorem opcodeOfTag_tag (op : Opcode) : opcodeOfTag op.tag = op := by
  cases op <;> rfl

/-- The opcode's place holds the tag and nothing above it. -/
theorem placeOpcode_fields (op : Opcode) :
    (placeOpcode op).extractLsb 24 22 = op.tag ∧ (placeOpcode op).extractLsb 31 25 = 0#7 ∧
      (placeOpcode op).extractLsb 21 19 = 0#3 ∧ (placeOpcode op).extractLsb 18 16 = 0#3 ∧
      (placeOpcode op).extractLsb 15 0 = 0#16 := by
  cases op <;> decide

/-- A register placed at bit 19 is the word's bits 21:19 and nothing else. -/
theorem placeReg19_fields (r : Reg) :
    (placeReg r 19).extractLsb 21 19 = BitVec.ofFin r ∧ (placeReg r 19).extractLsb 31 22 = 0#10 ∧
      (placeReg r 19).extractLsb 18 0 = 0#19 := by
  revert r; decide

/-- A register placed at bit 16 is the word's bits 18:16 and nothing else. -/
theorem placeReg16_fields (r : Reg) :
    (placeReg r 16).extractLsb 18 16 = BitVec.ofFin r ∧ (placeReg r 16).extractLsb 31 19 = 0#13 ∧
      (placeReg r 16).extractLsb 15 0 = 0#16 := by
  revert r; decide

/-- A register placed at bit 0 is the word's bits 2:0 and nothing else. -/
theorem placeReg0_fields (r : Reg) :
    (placeReg r 0).extractLsb 2 0 = BitVec.ofFin r ∧ (placeReg r 0).extractLsb 31 3 = 0#29 := by
  revert r; decide

/-- What stands above bit 21 of an encoded word, once the register and offset places hold nothing there. -/
def opcodePart (w : Word) : BitVec 10 := w.extractLsb 31 22

@[simp] theorem opcodePart_or (v w : Word) : opcodePart (v ||| w) = opcodePart v ||| opcodePart w := by
  simp [opcodePart, BitVec.extractLsb_or]

@[simp] theorem opcodePart_placeReg (r : Reg) :
    opcodePart (placeReg r 19) = 0#10 ∧ opcodePart (placeReg r 16) = 0#10 ∧ opcodePart (placeReg r 0) = 0#10 := by
  revert r; decide

@[simp] theorem opcodePart_offset (off32 : Word) : opcodePart (off32 &&& 0xFFFF#32) = 0#10 := by
  rw [opcodePart, BitVec.extractLsb_and, show BitVec.extractLsb 31 22 0xFFFF#32 = 0#10 by decide]
  exact BitVec.and_zero

/-- Bits 31:22 of a format R word are the opcode's alone. -/
theorem opcodePart_encodeR (op : Opcode) (a b d : Reg) : opcodePart (encodeR op a b d) = opcodePart (placeOpcode op) := by
  simp [encodeR]

/-- Bits 31:22 of a format I word are the opcode's alone. -/
theorem opcodePart_encodeI (op : Opcode) (a b : Reg) (off32 : Word) :
    opcodePart (encodeI op a b off32) = opcodePart (placeOpcode op) := by
  simp [encodeI]

/-- Bits 31:22 of a format J word are the opcode's alone. -/
theorem opcodePart_encodeJ (op : Opcode) (a b : Reg) : opcodePart (encodeJ op a b) = opcodePart (placeOpcode op) := by
  simp [encodeJ]

/-! ## Fields and encodings as numbers -/

/-- The fields of a word by division and remainder (R62 to R64, R66). -/
theorem fields_toNat (w : Word) :
    (highBits w).toNat = w.toNat / 2 ^ 25 ∧ (opcodeField w).toNat = w.toNat / 2 ^ 22 % 8 ∧
      (regAField w).val = w.toNat / 2 ^ 19 % 8 ∧ (regBField w).val = w.toNat / 2 ^ 16 % 8 ∧
      (destRegField w).val = w.toNat % 8 := by
  have := w.isLt
  simp [highBits, opcodeField, regAField, regBField, destRegField, regOfField, BitVec.extractLsb,
    Nat.shiftRight_eq_div_pow]
  omega

/-- The decoded offset is the signed value of its 16-bit field (R70). -/
theorem signed_off32Field (w : Word) : signed (off32Field w) = (w.extractLsb 15 0).toInt :=
  BitVec.toInt_signExtend_of_le (by decide)

/-- The tag of the opcode a tag names is that tag: the eight tags are all there are (R74). -/
theorem tag_opcodeOfTag (tag : BitVec 3) : (opcodeOfTag tag).tag = tag := by
  revert tag; decide

/-- A format R word as a sum (R76). -/
theorem encodeR_toNat (op : Opcode) (a b d : Reg) :
    (encodeR op a b d).toNat = op.tag.toNat * 2 ^ 22 + a.val * 2 ^ 19 + b.val * 2 ^ 16 + d.val := by
  revert a b d
  cases op <;> decide

/-- A format J word as a sum (R76). -/
theorem encodeJ_toNat (op : Opcode) (a b : Reg) :
    (encodeJ op a b).toNat = op.tag.toNat * 2 ^ 22 + a.val * 2 ^ 19 + b.val * 2 ^ 16 := by
  revert a b
  cases op <;> decide

/-- A format J word has nothing in the offset's place (R67). -/
theorem encodeJ_low (op : Opcode) (a b : Reg) : encodeJ op a b &&& 0xFFFF#32 = 0#32 := by
  revert a b
  cases op <;> decide

/-- A format I word as a sum (R76). -/
theorem encodeI_toNat (op : Opcode) (a b : Reg) (off32 : Word) :
    (encodeI op a b off32).toNat =
      op.tag.toNat * 2 ^ 22 + a.val * 2 ^ 19 + b.val * 2 ^ 16 + off32.toNat % 2 ^ 16 := by
  have hsplit : encodeI op a b off32 = encodeJ op a b ||| (off32 &&& 0xFFFF#32) := rfl
  have hdisjoint : encodeJ op a b &&& (off32 &&& 0xFFFF#32) = 0#32 := by
    rw [BitVec.and_comm off32, ← BitVec.and_assoc, encodeJ_low, BitVec.zero_and]
  have hmask : (off32 &&& 0xFFFF#32).toNat = off32.toNat % 2 ^ 16 := by
    simp only [BitVec.toNat_and]
    exact Nat.and_two_pow_sub_one_eq_mod off32.toNat 16
  have htag : op.tag.toNat < 8 := op.tag.isLt
  rw [hsplit, ← BitVec.add_eq_or_of_and_eq_zero _ _ hdisjoint, BitVec.toNat_add, encodeJ_toNat, hmask]
  omega

end Sys2Proof
end

