-- ==== Sys2Proof/Laws/Memory.lean ====
section
/-! SUPPORT. Memory cells: reading what was put, the canonical form, and the cells of an image. -/

namespace Sys2Proof.Machine

@[simp] theorem Memory.cell_nil (a : Nat) : Memory.cell [] a = none := rfl

/-- A cell holds what was last put there, and every other cell is left alone (R44). -/
theorem Memory.cell_put (m : Memory) (a k : Nat) (v : Word) :
    (m.put a v).cell k = if k = a then some v else m.cell k := by
  induction m with
  | nil => simp [Memory.put, Memory.cell]
  | cons c rest ih =>
    obtain ⟨b, w⟩ := c
    simp only [Memory.put]
    split
    · simp [Memory.cell]
    · split
      · next h => subst h; simp only [Memory.cell]; split <;> rfl
      · next hne =>
        simp only [Memory.cell, ih]
        split
        · next hk => subst hk; simp [Ne.symm hne]
        · rfl

@[simp] theorem Memory.cell_put_same (m : Memory) (a : Nat) (v : Word) : (m.put a v).cell a = some v := by
  simp [Memory.cell_put]

theorem Memory.cell_put_other (m : Memory) {a k : Nat} (h : k ≠ a) (v : Word) : (m.put a v).cell k = m.cell k := by
  simp [Memory.cell_put, h]

/-- Every listed address after a put is the new one or an old one. -/
theorem Memory.mem_put {m : Memory} {a : Nat} {v : Word} {c : Nat × Word} (h : c ∈ m.put a v) :
    c = (a, v) ∨ c ∈ m := by
  induction m with
  | nil => simpa [Memory.put] using h
  | cons d rest ih =>
    obtain ⟨b, w⟩ := d
    simp only [Memory.put] at h
    split at h
    · simpa using h
    · split at h
      · rcases List.mem_cons.mp h with h | h
        · exact .inl h
        · exact .inr (List.mem_cons_of_mem _ h)
      · rcases List.mem_cons.mp h with h | h
        · exact .inr (h ▸ List.mem_cons_self)
        · exact (ih h).imp id (List.mem_cons_of_mem _)

/-- A put keeps the canonical form. -/
theorem Memory.put_wf {m : Memory} (hm : m.wf) (a : Nat) (v : Word) : (m.put a v).wf := by
  induction m with
  | nil => simp [Memory.put, Memory.wf]
  | cons d rest ih =>
    obtain ⟨b, w⟩ := d
    obtain ⟨hb, hrest⟩ := List.pairwise_cons.mp hm
    simp only [Memory.put]
    split
    · next hlt =>
      refine List.pairwise_cons.mpr ⟨fun c hc => ?_, hm⟩
      rcases List.mem_cons.mp hc with rfl | hc
      · exact hlt
      · exact Nat.lt_trans hlt (hb c hc)
    · split
      · next heq => subst heq; exact List.pairwise_cons.mpr ⟨hb, hrest⟩
      · next hnlt hne =>
        refine List.pairwise_cons.mpr ⟨fun c hc => ?_, ih hrest⟩
        rcases Memory.mem_put hc with rfl | hc
        · change b < a; omega
        · exact hb c hc

/-- Memory at reset has the canonical form. -/
theorem Memory.reset_wf : State.reset.mem.wf := List.Pairwise.nil

/-- Every listed address of an image is at least where the image starts, and below its end. -/
theorem imageCells_bounds {start : Nat} {ws : List Word} {c : Nat × Word} (h : c ∈ imageCells start ws) :
    start ≤ c.1 ∧ c.1 < start + ws.length := by
  induction ws generalizing start with
  | nil => simp [imageCells] at h
  | cons w rest ih =>
    simp only [imageCells, List.mem_cons] at h
    rcases h with rfl | h
    · simp
    · have := ih h
      simp only [List.length_cons]
      omega

/-- An image's cells have the canonical form. -/
theorem imageCells_wf (start : Nat) (ws : List Word) : Memory.wf (imageCells start ws) := by
  induction ws generalizing start with
  | nil => exact List.Pairwise.nil
  | cons w rest ih =>
    exact List.pairwise_cons.mpr ⟨fun c hc => (imageCells_bounds hc).1, ih (start + 1)⟩

/-- Word k of an image stands at `start + k` (R181). -/
theorem cell_imageCells (start : Nat) (ws : List Word) (k : Nat) :
    Memory.cell (imageCells start ws) (start + k) = ws[k]? := by
  induction ws generalizing start k with
  | nil => rfl
  | cons w rest ih =>
    cases k with
    | zero => simp [imageCells, Memory.cell]
    | succ k =>
      have h := ih (start + 1) k
      rw [show start + 1 + k = start + (k + 1) by omega] at h
      simp [imageCells, Memory.cell, h]

end Sys2Proof.Machine
end

