-- ==== Sys2Proof/Laws/State.lean ====
section
/-! SUPPORT. What each update of State does to each field, and registers and memory reads across updates. -/

namespace Sys2Proof.Machine

variable (s : State)

/-! ### setReg -/

@[simp] theorem State.setReg_x (r : Reg) (v : Word) : (s.setReg r v).x = s.x.set r.val v r.isLt := rfl
@[simp] theorem State.setReg_pc (r : Reg) (v : Word) : (s.setReg r v).pc = s.pc := rfl
@[simp] theorem State.setReg_mem (r : Reg) (v : Word) : (s.setReg r v).mem = s.mem := rfl
@[simp] theorem State.setReg_count (r : Reg) (v : Word) : (s.setReg r v).count = s.count := rfl
@[simp] theorem State.setReg_run (r : Reg) (v : Word) : (s.setReg r v).run = s.run := rfl
@[simp] theorem State.setReg_cfg (r : Reg) (v : Word) : (s.setReg r v).cfg = s.cfg := rfl
@[simp] theorem State.setReg_drawn (r : Reg) (v : Word) : (s.setReg r v).drawn = s.drawn := rfl
@[simp] theorem State.setReg_readable (r : Reg) (v : Word) (k : Nat) : (s.setReg r v).readable k = s.readable k := rfl

/-! ### setPc -/

@[simp] theorem State.setPc_x (t : Word) : (s.setPc t).x = s.x := rfl
@[simp] theorem State.setPc_pc (t : Word) : (s.setPc t).pc = t := rfl
@[simp] theorem State.setPc_mem (t : Word) : (s.setPc t).mem = s.mem := rfl
@[simp] theorem State.setPc_count (t : Word) : (s.setPc t).count = s.count := rfl
@[simp] theorem State.setPc_run (t : Word) : (s.setPc t).run = s.run := rfl
@[simp] theorem State.setPc_cfg (t : Word) : (s.setPc t).cfg = s.cfg := rfl
@[simp] theorem State.setPc_drawn (t : Word) : (s.setPc t).drawn = s.drawn := rfl
@[simp] theorem State.setPc_reg (t : Word) (q : Reg) : (s.setPc t).reg q = s.reg q := rfl
@[simp] theorem State.setPc_readable (t : Word) (k : Nat) : (s.setPc t).readable k = s.readable k := rfl

/-! ### incPc -/

@[simp] theorem State.incPc_x : (s.incPc).x = s.x := rfl
@[simp] theorem State.incPc_pc : (s.incPc).pc = s.pc + 1#32 := rfl
@[simp] theorem State.incPc_mem : (s.incPc).mem = s.mem := rfl
@[simp] theorem State.incPc_count : (s.incPc).count = s.count := rfl
@[simp] theorem State.incPc_run : (s.incPc).run = s.run := rfl
@[simp] theorem State.incPc_cfg : (s.incPc).cfg = s.cfg := rfl
@[simp] theorem State.incPc_drawn : (s.incPc).drawn = s.drawn := rfl
@[simp] theorem State.incPc_reg (q : Reg) : (s.incPc).reg q = s.reg q := rfl
@[simp] theorem State.incPc_readable (k : Nat) : (s.incPc).readable k = s.readable k := rfl

/-! ### incCount -/

@[simp] theorem State.incCount_x : (s.incCount).x = s.x := rfl
@[simp] theorem State.incCount_pc : (s.incCount).pc = s.pc := rfl
@[simp] theorem State.incCount_mem : (s.incCount).mem = s.mem := rfl
@[simp] theorem State.incCount_count : (s.incCount).count = s.count + 1 := rfl
@[simp] theorem State.incCount_run : (s.incCount).run = s.run := rfl
@[simp] theorem State.incCount_cfg : (s.incCount).cfg = s.cfg := rfl
@[simp] theorem State.incCount_drawn : (s.incCount).drawn = s.drawn := rfl
@[simp] theorem State.incCount_reg (q : Reg) : (s.incCount).reg q = s.reg q := rfl
@[simp] theorem State.incCount_readable (k : Nat) : (s.incCount).readable k = s.readable k := rfl

/-! ### setHalted -/

@[simp] theorem State.setHalted_x : (s.setHalted).x = s.x := rfl
@[simp] theorem State.setHalted_pc : (s.setHalted).pc = s.pc := rfl
@[simp] theorem State.setHalted_mem : (s.setHalted).mem = s.mem := rfl
@[simp] theorem State.setHalted_count : (s.setHalted).count = s.count := rfl
@[simp] theorem State.setHalted_run : (s.setHalted).run = .halted := rfl
@[simp] theorem State.setHalted_cfg : (s.setHalted).cfg = s.cfg := rfl
@[simp] theorem State.setHalted_drawn : (s.setHalted).drawn = s.drawn := rfl
@[simp] theorem State.setHalted_reg (q : Reg) : (s.setHalted).reg q = s.reg q := rfl
@[simp] theorem State.setHalted_readable (k : Nat) : (s.setHalted).readable k = s.readable k := rfl

/-! ### takeFault -/

@[simp] theorem State.takeFault_x (e : Raised) : (s.takeFault e).x = s.x := rfl
@[simp] theorem State.takeFault_pc (e : Raised) : (s.takeFault e).pc = Config.pcAfterFault s.drawn := rfl
@[simp] theorem State.takeFault_mem (e : Raised) : (s.takeFault e).mem = s.mem := rfl
@[simp] theorem State.takeFault_count (e : Raised) : (s.takeFault e).count = Config.countAfterFault s.drawn := rfl
@[simp] theorem State.takeFault_run (e : Raised) : (s.takeFault e).run = .faulted ⟨e.cause, s.pc, e.info⟩ := rfl
@[simp] theorem State.takeFault_cfg (e : Raised) : (s.takeFault e).cfg = s.cfg := rfl
@[simp] theorem State.takeFault_drawn (e : Raised) : (s.takeFault e).drawn = s.drawn + 1 := rfl
@[simp] theorem State.takeFault_reg (e : Raised) (q : Reg) : (s.takeFault e).reg q = s.reg q := rfl
@[simp] theorem State.takeFault_readable (e : Raised) (k : Nat) : (s.takeFault e).readable k = s.readable k := rfl

/-! ### Registers -/

/-- `x[i] <- v` changes register i and no other (R9, R21). -/
theorem State.reg_setReg (r q : Reg) (v : Word) : (s.setReg r v).reg q = if q = r then v else s.reg q := by
  simp only [State.reg, State.setReg, Vector.get_eq_getElem, Vector.getElem_set, Fin.ext_iff, eq_comm]

@[simp] theorem State.reg_setReg_same (r : Reg) (v : Word) : (s.setReg r v).reg r = v := by
  simp [State.reg_setReg]

theorem State.reg_setReg_other {r q : Reg} (h : q ≠ r) (v : Word) : (s.setReg r v).reg q = s.reg q := by
  simp [State.reg_setReg, h]

/-- Every register is 0 at reset (R33). -/
theorem State.reg_reset (q : Reg) : State.reset.reg q = 0#32 := by
  simp [State.reg, State.reset, Vector.get_eq_getElem]

end Sys2Proof.Machine
end

