-- ==== Sys2Proof/Laws/Ops.lean ====
section
/-! SUPPORT. One lemma per shared operation that says everything it can do; proofs cite these and do not unfold it. -/

namespace Sys2Proof.Machine

/-- R42, as inequalities. -/
theorem inRange_iff (c : Config) (a : Int) : inRange c a = true ↔ 0 ≤ a ∧ a < (c.memWords : Int) := by
  simp [inRange]

/-- When a read answers a word (R42, R43). -/
theorem State.memRead_ok_iff {s : State} {kind : ReadKind} {a : Int} {v : Word} :
    s.memRead kind a = .ok v ↔ (0 ≤ a ∧ a < (s.cfg.memWords : Int)) ∧ s.readable a.toNat = some v := by
  rw [← inRange_iff]
  unfold State.memRead
  split
  · next h => cases hr : s.readable a.toNat <;> simp [h]
  · next h => simp [h]

/-- When a read raises, and what (R42, R43). -/
theorem State.memRead_error_iff {s : State} {kind : ReadKind} {a : Int} {r : Raised} :
    s.memRead kind a = .error r ↔
      ((a < 0 ∨ (s.cfg.memWords : Int) ≤ a) ∧ r = ⟨kind.outOfRange, a⟩) ∨
      ((0 ≤ a ∧ a < (s.cfg.memWords : Int)) ∧ s.readable a.toNat = none ∧ r = ⟨kind.uninitialized, a⟩) := by
  unfold State.memRead
  split
  · next h =>
    have h := (inRange_iff _ _).mp h
    have hn : ¬(a < 0 ∨ (s.cfg.memWords : Int) ≤ a) := by omega
    cases hr : s.readable a.toNat <;> simp [h, hn, eq_comm]
  · next h =>
    have h : ¬(0 ≤ a ∧ a < (s.cfg.memWords : Int)) := fun k => h ((inRange_iff _ _).mpr k)
    have hn : a < 0 ∨ (s.cfg.memWords : Int) ≤ a := by omega
    simp [h, hn, eq_comm]

/-- When a write goes through, and the state it gives (R42, R44). -/
theorem State.memWrite_ok_iff {s t : State} {a : Int} {v : Word} :
    s.memWrite a v = .ok t ↔
      (0 ≤ a ∧ a < (s.cfg.memWords : Int)) ∧ t = { s with mem := s.mem.put a.toNat v } := by
  rw [← inRange_iff]
  unfold State.memWrite
  split
  · next h => simp [h, eq_comm]
  · next h => simp [h]

/-- When a write raises, and what (R42). -/
theorem State.memWrite_error_iff {s : State} {a : Int} {v : Word} {r : Raised} :
    s.memWrite a v = .error r ↔ (a < 0 ∨ (s.cfg.memWords : Int) ≤ a) ∧ r = ⟨.outOfRangeStore, a⟩ := by
  unfold State.memWrite
  split
  · next h =>
    have h := (inRange_iff _ _).mp h
    have hn : ¬(a < 0 ∨ (s.cfg.memWords : Int) ≤ a) := by omega
    simp [hn]
  · next h =>
    have h : ¬(0 ≤ a ∧ a < (s.cfg.memWords : Int)) := fun k => h ((inRange_iff _ _).mpr k)
    have hn : a < 0 ∨ (s.cfg.memWords : Int) ≤ a := by omega
    simp [hn, eq_comm]

/-- What a read of word k gives once memory has a word put at a. -/
theorem State.readable_put (s : State) (a k : Nat) (v : Word) :
    ({ s with mem := s.mem.put a v } : State).readable k = if k = a then some v else s.readable k := by
  by_cases h : k = a <;> simp [State.readable, Memory.cell_put, h]

/-- A word that reads one way in every memory: the parameter decides only unlisted words. -/
theorem State.readable_of_cell {s : State} {a : Nat} {v : Word} (h : s.mem.cell a = some v) :
    s.readable a = some v := by
  simp [State.readable, h]

/-- When the decoder answers an instruction (R66, R68). -/
theorem decode_ok_iff {check : HighBitsCheck} {w : Word} {i : Instr} :
    decode check w = .ok i ↔ unknownOpcode check w = false ∧ decodeFields w = i := by
  unfold decode
  split
  · next h => simp [h]
  · next h => simp [h]

/-- When the decoder refuses, and what it answers (R66). -/
theorem decode_error_iff {check : HighBitsCheck} {w : Word} {e : DecodeError} :
    decode check w = .error e ↔ unknownOpcode check w = true ∧ e = .unknownOpcode w := by
  unfold decode
  split
  · next h => simp [h, eq_comm]
  · next h => simp [h]

/-- When fetch and decode answer an instruction (R101, R103). -/
theorem State.fetchDecode_ok_iff {s : State} {i : Instr} :
    s.fetchDecode = .ok i ↔ ∃ w, s.fetch = .ok w ∧ decode s.cfg.highBitsCheck w = .ok i := by
  unfold State.fetchDecode
  cases hf : s.fetch with
  | error r => simp
  | ok w =>
    cases hd : decode s.cfg.highBitsCheck w with
    | error e => obtain ⟨u⟩ := e; simp [hd]
    | ok j => simp [hd]

/-- When fetch and decode raise, and what (R101, R103). -/
theorem State.fetchDecode_error_iff {s : State} {r : Raised} :
    s.fetchDecode = .error r ↔
      s.fetch = .error r ∨
      ∃ w, s.fetch = .ok w ∧ decode s.cfg.highBitsCheck w = .error (.unknownOpcode w) ∧
        r = ⟨.unknownOpcode, unsigned w⟩ := by
  unfold State.fetchDecode
  cases hf : s.fetch with
  | error q => simp
  | ok w =>
    cases hd : decode s.cfg.highBitsCheck w with
    | error e =>
      obtain ⟨-, rfl⟩ := decode_error_iff.mp hd
      simp [hd, eq_comm]
    | ok j => simp [hd]

/-- Registers after a format R instruction (R22). -/
theorem State.writeAlu_reg (s : State) (op : Word → Word → Word) (a b d q : Reg) :
    (s.writeAlu op a b d).reg q = if q = d then op (s.reg a) (s.reg b) else s.reg q := by
  simp [State.writeAlu, State.reg_setReg]

@[simp] theorem State.writeAlu_pc (s : State) (op : Word → Word → Word) (a b d : Reg) :
    (s.writeAlu op a b d).pc = s.pc + 1#32 := rfl
@[simp] theorem State.writeAlu_mem (s : State) (op : Word → Word → Word) (a b d : Reg) :
    (s.writeAlu op a b d).mem = s.mem := rfl
@[simp] theorem State.writeAlu_count (s : State) (op : Word → Word → Word) (a b d : Reg) :
    (s.writeAlu op a b d).count = s.count + 1 := rfl
@[simp] theorem State.writeAlu_run (s : State) (op : Word → Word → Word) (a b d : Reg) :
    (s.writeAlu op a b d).run = s.run := rfl
@[simp] theorem State.writeAlu_cfg (s : State) (op : Word → Word → Word) (a b d : Reg) :
    (s.writeAlu op a b d).cfg = s.cfg := rfl
@[simp] theorem State.writeAlu_drawn (s : State) (op : Word → Word → Word) (a b d : Reg) :
    (s.writeAlu op a b d).drawn = s.drawn := rfl

/-- Registers after the link write of jalr (R141). -/
theorem State.link_reg (s : State) (b q : Reg) : (s.link b).reg q = if q = b then s.pc + 1#32 else s.reg q := by
  simp [State.link, State.reg_setReg]

@[simp] theorem State.link_pc (s : State) (b : Reg) : (s.link b).pc = s.pc + 1#32 := rfl
@[simp] theorem State.link_mem (s : State) (b : Reg) : (s.link b).mem = s.mem := rfl
@[simp] theorem State.link_count (s : State) (b : Reg) : (s.link b).count = s.count := rfl
@[simp] theorem State.link_run (s : State) (b : Reg) : (s.link b).run = s.run := rfl
@[simp] theorem State.link_cfg (s : State) (b : Reg) : (s.link b).cfg = s.cfg := rfl
@[simp] theorem State.link_drawn (s : State) (b : Reg) : (s.link b).drawn = s.drawn := rfl

/-- beq's condition is equality (R140). -/
@[simp] theorem wordsEqual_iff (va vb : Word) : wordsEqual va vb = true ↔ va = vb := by
  simp [wordsEqual]

end Sys2Proof.Machine
end

