-- ==== Sys2Proof/Laws/PerInstr.lean ====
section
/-! SUPPORT. One family over the instructions: the bits of an encoded word that say which instruction it is. -/

/-- Bits 31:22 of the encoded word are the opcode's tag under seven zeros (R62, R66, R76). -/
def Sys2Proof.Laws.OpcodeBits.Statement (i : Sys2Proof.Instr) : Prop :=
  (Sys2Proof.encode i).extractLsb 31 22 = i.opcode.tag.setWidth 10

theorem Sys2Proof.Laws.OpcodeBits.add (regA regB destReg : Sys2Proof.Reg) :
    Sys2Proof.Laws.OpcodeBits.Statement (.add regA regB destReg) :=
  Sys2Proof.opcodePart_encodeR .add regA regB destReg

theorem Sys2Proof.Laws.OpcodeBits.nor (regA regB destReg : Sys2Proof.Reg) :
    Sys2Proof.Laws.OpcodeBits.Statement (.nor regA regB destReg) :=
  Sys2Proof.opcodePart_encodeR .nor regA regB destReg

theorem Sys2Proof.Laws.OpcodeBits.lw (regA regB : Sys2Proof.Reg) (off32 : Sys2Proof.Word) :
    Sys2Proof.Laws.OpcodeBits.Statement (.lw regA regB off32) :=
  Sys2Proof.opcodePart_encodeI .lw regA regB off32

theorem Sys2Proof.Laws.OpcodeBits.sw (regA regB : Sys2Proof.Reg) (off32 : Sys2Proof.Word) :
    Sys2Proof.Laws.OpcodeBits.Statement (.sw regA regB off32) :=
  Sys2Proof.opcodePart_encodeI .sw regA regB off32

theorem Sys2Proof.Laws.OpcodeBits.beq (regA regB : Sys2Proof.Reg) (off32 : Sys2Proof.Word) :
    Sys2Proof.Laws.OpcodeBits.Statement (.beq regA regB off32) :=
  Sys2Proof.opcodePart_encodeI .beq regA regB off32

theorem Sys2Proof.Laws.OpcodeBits.jalr (regA regB : Sys2Proof.Reg) :
    Sys2Proof.Laws.OpcodeBits.Statement (.jalr regA regB) :=
  Sys2Proof.opcodePart_encodeJ .jalr regA regB

theorem Sys2Proof.Laws.OpcodeBits.halt : Sys2Proof.Laws.OpcodeBits.Statement .halt := by
  unfold Sys2Proof.Laws.OpcodeBits.Statement; decide

theorem Sys2Proof.Laws.OpcodeBits.noop : Sys2Proof.Laws.OpcodeBits.Statement .noop := by
  unfold Sys2Proof.Laws.OpcodeBits.Statement; decide
end

