-- ==== Sys2Proof/Laws/Step.lean ====
section
/-! SUPPORT. What a step and an instruction can do, said once. -/

namespace Sys2Proof.Machine

/-- When the fetch answers a word (R101). -/
theorem State.fetch_ok_iff {s : State} {w : Word} :
    s.fetch = .ok w ↔ s.pc.toNat < s.cfg.memWords ∧ s.readable s.pc.toNat = some w := by
  unfold State.fetch
  rw [State.memRead_ok_iff]
  simp [unsigned]

/-- A step that answers a next state came from a running core, and took the fault of its fetch or decoding or ran the
decoded instruction (R100 to R104). -/
theorem step_next_cases {s t : State} (h : step s = .next t) :
    s.run = .running ∧
      ((∃ r, s.fetchDecode = .error r ∧ t = s.takeFault r) ∨ ∃ i, s.fetchDecode = .ok i ∧ exec i s = .next t) := by
  unfold step at h
  split at h
  · cases h
  · cases h
  · next hrun =>
    refine ⟨hrun, ?_⟩
    split at h
    · next r hr => cases h; exact .inl ⟨r, hr, rfl⟩
    · next i hi => exact .inr ⟨i, hi, h⟩

/-- The fault an instruction takes: only lw and sw take one (R160). -/
def raisesFault (i : Instr) (s : State) (r : Raised) : Prop :=
  (∃ a b off32, i = .lw a b off32 ∧ s.memRead .load (effectiveAddress (s.reg a) off32) = .error r) ∨
  (∃ a b off32, i = .sw a b off32 ∧ s.memWrite (effectiveAddress (s.reg a) off32) (s.reg b) = .error r)

/-- What memory is after a completing instruction: as before, or with one word put by sw (R22, R44). -/
def memoryAfter (i : Instr) (s t : State) : Prop :=
  (t.mem = s.mem ∧
    (∀ a b off32, i = .lw a b off32 → ∃ v, s.memRead .load (effectiveAddress (s.reg a) off32) = .ok v) ∧
    ∀ a b off32, i ≠ .sw a b off32) ∨
  (∃ a b off32, i = .sw a b off32 ∧ 0 ≤ effectiveAddress (s.reg a) off32 ∧
    effectiveAddress (s.reg a) off32 < s.cfg.memWords ∧
    t.mem = s.mem.put (effectiveAddress (s.reg a) off32).toNat (s.reg b))

/-- An instruction takes a fault, or completes: counted, the parameters as before, run as before but for halt, and memory
as before but for sw. -/
theorem exec_next_cases {i : Instr} {s t : State} (h : exec i s = .next t) :
    (∃ r, t = s.takeFault r ∧ raisesFault i s r) ∨
    (t.cfg = s.cfg ∧ t.drawn = s.drawn ∧ t.count = s.count + 1 ∧
      ((i = .halt ∧ t.run = .halted) ∨ (i ≠ .halt ∧ t.run = s.run)) ∧ memoryAfter i s t) := by
  have plain : ∀ {j : Instr}, (∀ a b off32, j ≠ .lw a b off32) → (∀ a b off32, j ≠ .sw a b off32) →
      t.mem = s.mem → memoryAfter j s t :=
    fun hlw hsw hm => .inl ⟨hm, fun a b o e => absurd e (hlw a b o), hsw⟩
  cases i
  case lw a b o =>
    simp only [exec, execLw] at h
    split at h
    · next r hr => cases h; exact .inl ⟨r, rfl, .inl ⟨a, b, o, rfl, hr⟩⟩
    · next v hv =>
      cases h
      exact .inr ⟨rfl, rfl, rfl, .inr ⟨nofun, rfl⟩, .inl ⟨rfl, fun _ _ _ e => by cases e; exact ⟨v, hv⟩, nofun⟩⟩
  case sw a b o =>
    simp only [exec, execSw] at h
    split at h
    · next r hr =>
      have hr := State.memWrite_error_iff.mp hr
      cases h
      exact .inl ⟨r, rfl, .inr ⟨a, b, o, rfl, State.memWrite_error_iff.mpr hr⟩⟩
    · next u hu =>
      obtain ⟨⟨h0, h1⟩, rfl⟩ := State.memWrite_ok_iff.mp hu
      cases h
      exact .inr ⟨rfl, rfl, rfl, .inr ⟨nofun, rfl⟩, .inr ⟨a, b, o, rfl, h0, h1, rfl⟩⟩
  case beq a b o =>
    simp only [exec, execBeq] at h
    split at h <;> cases h <;> exact .inr ⟨rfl, rfl, rfl, .inr ⟨nofun, rfl⟩, plain nofun nofun rfl⟩
  case halt => cases h; exact .inr ⟨rfl, rfl, rfl, .inl ⟨rfl, rfl⟩, plain nofun nofun rfl⟩
  all_goals cases h; exact .inr ⟨rfl, rfl, rfl, .inr ⟨nofun, rfl⟩, plain nofun nofun rfl⟩

end Sys2Proof.Machine
end

