-- ==== Sys2Proof/Laws/Run.lean ====
section
/-! SUPPORT. Runs of several steps, one step at a time. -/

namespace Sys2Proof.Machine

/-- No step at all. -/
theorem run_zero (s : State) : Sys2Proof.core.run 0 s = .next s := rfl

/-- A run goes on after a step that answers a next state. -/
theorem run_succ_of_next {s t : State} (h : step s = .next t) (k : Nat) :
    Sys2Proof.core.run (k + 1) s = Sys2Proof.core.run k t := by
  have h : Sys2Proof.core.step s = .next t := h
  simp only [Host.Core.run, h]

/-- Every instruction answers a next state: a fault it takes is one (R162). -/
theorem exec_ne_refused (i : Instr) (s : State) (r : Refusal) : exec i s ≠ .refused r := by
  cases i
  case lw a b o => simp only [exec, execLw]; split <;> nofun
  case sw a b o => simp only [exec, execSw]; split <;> nofun
  case beq a b o => simp only [exec, execBeq]; split <;> nofun
  all_goals nofun

/-- A run of one step or more from a core that is not running answers nothing (R100). -/
theorem run_succ_of_stopped {s t : State} (h : s.run ≠ .running) (k : Nat) :
    Sys2Proof.core.run (k + 1) s ≠ .next t := by
  have hstep : ∃ f, Sys2Proof.core.step s = .fault f := by
    change ∃ f, step s = .fault f
    unfold step
    split
    · exact ⟨_, rfl⟩
    · exact ⟨_, rfl⟩
    · next hr => exact absurd hr h
  obtain ⟨f, hf⟩ := hstep
  simp only [Host.Core.run, hf]
  nofun

end Sys2Proof.Machine
end

