-- ==== Sys2Proof/Tests/Slice0.lean ====
section
/-! SUPPORT. Tests, each expected result from spec/95_test_vectors.md or worked out from the rule it names; then, for every
statement with hypotheses, a witness that meets them. -/

namespace Sys2Proof.Tests

open Sys2Proof Sys2Proof.Machine

/-- Minus n as a word. -/
def neg (n : Nat) : Word := BitVec.ofInt 32 (-(n : Int))

/-- Reset with some registers and words, at a pc: small states for one step. -/
def at_ (pc : Word) (regs : List (Reg × Word)) (mem : Memory) : State :=
  regs.foldl (fun s r => s.setReg r.1 r.2) { State.reset with pc := pc, mem := mem }

/-- One step, if it answers a next state. -/
def after (s : State) : Option State :=
  match step s with
  | .next t => some t
  | .fault _ => none
  | .refused _ => none

/-- What the next state shows of a completing step. -/
def sees (s : State) (q : Reg) : Option (Word × Word × Nat × RunState) :=
  (after s).map fun t => (t.reg q, t.pc, t.count, t.run)

/-- Code, ia and info of the fault a step takes, and a register it must not have written. -/
def faults (s : State) (q : Reg) : Option (Nat × Word × Int × Word) :=
  match after s with
  | some t => (match t.run with | .faulted r => some (r.cause.code, r.ia, r.info, t.reg q) | _ => none)
  | none => none

/-! ## WellFormed: the check refuses, and accepts at both ends (R70, V1.4) -/

theorem test_wf_lw_refused : (Instr.lw 0 1 32768#32).wellFormed = false := by decide
theorem test_wf_sw_refused : (Instr.sw 0 1 (neg 32769)).wellFormed = false := by decide
theorem test_wf_beq_refused : (Instr.beq 0 0 32768#32).wellFormed = false := by decide
theorem test_wf_ends : (Instr.lw 0 1 (neg 32768)).wellFormed = true ∧ (Instr.sw 0 1 32767#32).wellFormed = true ∧
    (Instr.beq 0 0 (neg 32768)).wellFormed = true := by decide

/-! ## Decoding: words written out from R60 and R67, bits 31:25, opcode, regA, regB, then the rest -/

theorem test_decode_add : decode .strict 0b0000000_000_001_010_0000000000000_011#32 = .ok (.add 1 2 3) := by decide
theorem test_decode_nor : decode .strict 0b0000000_001_111_000_0000000000000_111#32 = .ok (.nor 7 0 7) := by decide
theorem test_decode_lw : decode .strict 0b0000000_010_101_110_1000000000000000#32 = .ok (.lw 5 6 (neg 32768)) := by decide
theorem test_decode_sw : decode .strict 0b0000000_011_000_111_0111111111111111#32 = .ok (.sw 0 7 32767#32) := by decide
theorem test_decode_beq : decode .strict 0b0000000_100_011_100_1111111111111111#32 = .ok (.beq 3 4 (neg 1)) := by decide
theorem test_decode_jalr : decode .strict 0b0000000_101_111_011_0000000000000000#32 = .ok (.jalr 7 3) := by decide
theorem test_decode_halt : decode .strict 0b0000000_110_0000000000000000000000#32 = .ok .halt := by decide
theorem test_decode_noop : decode .strict 0b0000000_111_0000000000000000000000#32 = .ok .noop := by decide

/-- Unused bits are ignored (section 2.1). -/
theorem test_decode_unused : decode .strict 0x003FFFFF#32 = .ok (.add 7 7 7) ∧
    decode .strict 0x015F1234#32 = .ok (.jalr 3 7) ∧ decode .strict 0x018ABCDE#32 = .ok .halt ∧
    decode .strict 0x01FFFFFF#32 = .ok .noop := by decide

/-- Bits 31:25 (section 2.1). -/
theorem test_decode_high : decode .strict 0x02000000#32 = .error (.unknownOpcode 0x02000000#32) ∧
    decode .strict 0xFFFFFFFF#32 = .error (.unknownOpcode 0xFFFFFFFF#32) ∧
    decode .ignore 0x80000000#32 = .ok (.add 0 0 0) ∧ decode .ignore 0xFFFFFFFF#32 = .ok .noop := by decide

/-- The encoder on the words of section 2.7 and of V1.1, V1.3. -/
theorem test_encode : encode (.add 1 2 3) = 655363#32 ∧ encode (.nor 1 1 5) = 4784133#32 ∧
    encode (.lw 0 1 2#32) = 8454146#32 ∧ encode (.sw 0 5 10#32) = 12910602#32 ∧
    encode (.beq 0 0 (neg 4)) = 16842748#32 ∧ encode (.jalr 2 3) = 22216704#32 ∧
    encode .halt = 25165824#32 ∧ encode .noop = 29360128#32 := by decide

theorem test_table_word : decodeTableWord 32 0x00810002 = some (.lw 0 1 2#32) ∧ decodeTableWord 32 0x02810002 = none := by
  decide

/-- A table word placed at the pc is what the next step runs (R106). -/
theorem test_fetch_word : sees (State.reset.withFetchWord 32 0x01C00000) 0 = some (0#32, 1#32, 1, .running) := by decide

/-! ## One step of each instruction (sections 2.2 to 2.6) -/

theorem test_add_wraps : sees (at_ 0#32 [(1, 0x80000000#32), (2, 0x80000000#32)] [(0, encode (.add 1 2 3))]) 3
    = some (0#32, 1#32, 1, .running) := by decide
theorem test_add_register_zero : sees (at_ 0#32 [(1, 3#32)] [(0, encode (.add 1 1 0))]) 0
    = some (6#32, 1#32, 1, .running) := by decide
theorem test_nor : sees (at_ 0#32 [(1, 0xF0F0F0F0#32), (2, 0x0F0F0000#32)] [(0, encode (.nor 1 2 3))]) 3
    = some (0x00000F0F#32, 1#32, 1, .running) := by decide
theorem test_nor_source_is_destination : sees (at_ 0#32 [] [(0, encode (.nor 0 0 0))]) 0
    = some (0xFFFFFFFF#32, 1#32, 1, .running) := by decide
theorem test_lw_negative_base : sees (at_ 5#32 [(1, 0xFFFFFFFF#32)] [(0, 42#32), (5, encode (.lw 1 2 1#32))]) 2
    = some (42#32, 6#32, 1, .running) := by decide
theorem test_lw_base_is_destination : sees (at_ 0#32 [(1, 3#32)] [(0, encode (.lw 1 1 0#32)), (3, 7#32)]) 1
    = some (7#32, 1#32, 1, .running) := by decide
theorem test_sw_last_word : (after (at_ 0#32 [(1, 0x0000FFFF#32), (2, 9#32)] [(0, encode (.sw 1 2 0#32))])).map
    (fun t => (t.mem, t.pc, t.count)) = some ([(0, encode (.sw 1 2 0#32)), (65535, 9#32)], 1#32, 1) := by decide
theorem test_sw_over_itself : (after (at_ 20#32 [(1, 20#32)] [(20, encode (.sw 1 1 0#32))])).map
    (fun t => (t.mem, t.pc)) = some ([(20, 20#32)], 21#32) := by decide
theorem test_beq_taken_back : sees (at_ 10#32 [(1, 7#32), (2, 7#32)] [(10, encode (.beq 1 2 (neg 11)))]) 1
    = some (7#32, 0#32, 1, .running) := by decide
theorem test_beq_below_zero : sees (at_ 5#32 [] [(5, encode (.beq 0 0 (neg 32768)))]) 0
    = some (0#32, 0xFFFF8006#32, 1, .running) := by decide
theorem test_jalr : sees (at_ 4#32 [(2, 10#32)] [(4, encode (.jalr 2 3))]) 3 = some (5#32, 10#32, 1, .running) := by decide
theorem test_jalr_same_register : sees (at_ 0#32 [(1, 40#32)] [(0, encode (.jalr 1 1))]) 1
    = some (1#32, 1#32, 1, .running) := by decide
theorem test_halt : sees (at_ 1#32 [] [(1, 0x018ABCDE#32)]) 0 = some (0#32, 2#32, 1, .halted) := by decide
theorem test_halted_takes_no_step : after { State.reset with run := .halted } = none := by decide
theorem test_noop : sees (at_ 6#32 [] [(6, encode .noop)]) 0 = some (0#32, 7#32, 1, .running) := by decide

/-! ## Faults (sections 2.3, 2.6) -/

theorem test_fault_1 : faults (at_ 3#32 [] [(3, 0x02810002#32)]) 1 = some (1, 3#32, 0x02810002, 0#32) := by decide
theorem test_fault_2 : faults (at_ 65536#32 [] []) 0 = some (2, 65536#32, 65536, 0#32) := by decide
theorem test_fault_3 : faults (at_ 0#32 [(2, 8#32)] [(0, encode (.lw 0 2 (neg 1)))]) 2 = some (3, 0#32, -1, 8#32) := by decide
theorem test_fault_4 : faults (at_ 0#32 [(1, 0x0000FFFF#32)] [(0, encode (.sw 1 2 1#32))]) 1
    = some (4, 0#32, 65536, 0x0000FFFF#32) := by decide
theorem test_fault_5 : faults (at_ 3#32 [] [(0, 0#32), (1, 0#32), (2, 0#32)]) 0 = some (5, 3#32, 3, 0#32) := by decide
theorem test_fault_6 : faults (at_ 0#32 [(1, 100#32), (2, 8#32)] [(0, encode (.lw 1 2 0#32))]) 2
    = some (6, 0#32, 100, 8#32) := by decide

/-- The other settings of the parameters (sections 2.3, 2.6). -/
theorem test_parameters :
    sees { at_ 0#32 [(1, 100#32), (2, 8#32)] [(0, encode (.lw 1 2 0#32))] with cfg := ⟨65536, .zero, .strict⟩ } 2
      = some (0#32, 1#32, 1, .running) ∧
    sees { at_ 3#32 [(0, 4#32)] [] with cfg := ⟨65536, .zero, .strict⟩ } 0 = some (8#32, 4#32, 1, .running) ∧
    sees { at_ 0#32 [] [(0, 0x02810002#32), (2, 5#32)] with cfg := ⟨65536, .fault, .ignore⟩ } 1
      = some (5#32, 1#32, 1, .running) := by decide

/-! ## The text forms (V1.1, section 2.7, D16) -/

/-- Generous limits. -/
def limits : AsmLimits := ⟨1000, 100⟩

/-- `lw 0 1 five` / `halt` / `five: .fill 5`. -/
def firstProgram : List (List Char) :=
  [[' ', 'l', 'w', ' ', '0', ' ', '1', ' ', 'f', 'i', 'v', 'e'], ['\t', 'h', 'a', 'l', 't'],
    ['f', 'i', 'v', 'e', ':', ' ', '.', 'f', 'i', 'l', 'l', ' ', '5']]

theorem test_assemble : assemble limits firstProgram = .ok [8454146#32, 25165824#32, 5#32] := by decide
theorem test_assemble_file : assembleFile limits (some [[' ', '.', 'f', 'i', 'l', 'l', ' ', '-', '1']])
    = .ok [['-', '1']] := by decide
theorem test_assemble_branch : assemble limits [['l', ' ', 'b', 'e', 'q', ' ', '0', ' ', '0', ' ', 'l']]
    = .ok [16842751#32] := by decide
theorem test_assemble_failures :
    encodeChecked .add [1, 2, 8] = .error .invalidRegister ∧ encodeChecked .lw [0, 1, 32768] = .error .offsetOutOfRange ∧
    assemble limits [[' ', 'm', 'u', 'l', ' ', '1', ' ', '2', ' ', '3']] = .error .unknownOpcode ∧
    assemble limits [[' ', 'l', 'w', ' ', '0', ' ', '1']] = .error .malformedLine ∧
    assemble limits [['a', ' ', 'n', 'o', 'o', 'p'], ['a', ' ', 'h', 'a', 'l', 't']] = .error .duplicateLabel ∧
    assemble limits [[' ', '.', 'f', 'i', 'l', 'l', ' ', 'b']] = .error .undefinedLabel := by decide
theorem test_load : (State.load Config.default 0 (some [['2', '5', '1', '6', '5', '8', '2', '4'], ['-', '1']])).toOption.map
    (fun s => (s.mem, s.pc)) = some ([(0, 0x01800000#32), (1, 0xFFFFFFFF#32)], 0#32) := by decide
theorem test_load_failures :
    readMachineWord ['4', '2', '9', '4', '9', '6', '7', '2', '9', '6'] = .error .malformedMachineWord ∧
    readMachineWord ['x'] = .error .malformedMachineWord := by decide

/-! ## Witnesses: the hypotheses of the statements are met -/

/-- EncodeThenDecodeIsIdentity: a well-formed instruction at each end of the offset. -/
theorem witness_wellFormed : (Instr.lw 5 6 (neg 32768)).wellFormed = true ∧ (Instr.beq 3 4 32767#32).wellFormed = true := by
  decide

/-- DecodedOperandsAreTheWordsFields: a word that decodes under each setting, bits 31:25 set under `ignore`; the decode
tests above meet each of its clauses, at both ends of the offset. -/
theorem witness_decodes : decode .ignore 0xFE7FFFFF#32 = .ok (.nor 7 7 7) ∧
    decode .strict 0x01008000#32 = .ok (.beq 0 0 (neg 32768)) := by decide

/-- OnlyHighBitsMakeAWordIllegal: the two sides of 2^25. -/
theorem witness_highBits : 2 ^ 25 ≤ (0x02000000#32).toNat ∧ (0x01FFFFFF#32).toNat < 2 ^ 25 := by decide

/-- MemWriteSetsOneWord: the first and the last word of memory, and another word. -/
theorem witness_memWrite : (0 : Int) ≤ 0 ∧ (0 : Int) ≤ 65535 ∧ (65535 : Int) < (State.reset.cfg.memWords : Int) ∧
    ((0 : Nat) : Int) ≠ 65535 := by decide

/-- EqualCellsAreEqualMemory: two memories, in canonical form, built differently. -/
theorem witness_equalCells :
    let m := Memory.put (Memory.put [] 1 5#32) 0 6#32
    let n := Memory.put (Memory.put [] 0 6#32) 1 5#32
    m.wf ∧ n.wf ∧ ∀ a, m.cell a = n.cell a := by
  refine ⟨by decide, by decide, fun a => rfl⟩

/-- StoreIsSeenByFetch: a store to the next instruction's address, and the state it leaves. -/
theorem witness_storeSeen : ∃ s t u : State, exec (.sw 0 2 1#32) s = .next t ∧ t.isFaulted = false ∧ s.run = .running ∧
    u.mem = t.mem ∧ u.cfg = t.cfg ∧ unsigned u.pc = effectiveAddress (s.reg 0) 1#32 := by
  refine ⟨at_ 0#32 [(2, 29360128#32)] [],
    { at_ 0#32 [(2, 29360128#32)] [(1, 29360128#32)] with pc := 1#32, count := 1 },
    { at_ 0#32 [(2, 29360128#32)] [(1, 29360128#32)] with pc := 1#32, count := 1 }, rfl, rfl, rfl, rfl, rfl, ?_⟩
  decide

/-- WrappingAdderSuffices, LsuAdderIsExact: the largest memory and both ends of the offset. -/
theorem witness_adder : 2 ^ 31 - 2 ^ 15 ≤ 2 ^ 31 - 2 ^ 15 ∧ offsetFits (neg 32768) = true ∧ offsetFits 32767#32 = true := by
  decide

/-- WrappingAdderSuffices: an address at the end of the memory. -/
theorem witness_adder_in_range : 0 ≤ effectiveAddress 65534#32 1#32 ∧ effectiveAddress 65534#32 1#32 < (65536 : Nat) := by
  decide

/-- LwLoadsTheWord: the last word, written. -/
theorem witness_lw :
    let s := at_ 0#32 [(1, 65534#32)] [(65535, 7#32)]
    0 ≤ signed (s.reg 1) + signed 1#32 ∧ signed (s.reg 1) + signed 1#32 < s.cfg.memWords ∧
      s.readable (signed (s.reg 1) + signed 1#32).toNat = some 7#32 := by decide

/-- LwFaults: below memory, just past it, and the last word when nothing was written there. -/
theorem witness_lwFaults :
    let s := at_ 0#32 [(1, 65535#32)] []
    (signed (s.reg 0) + signed (neg 1) < 0) ∧ ((s.cfg.memWords : Int) ≤ signed (s.reg 1) + signed 1#32) ∧
      0 ≤ signed (s.reg 1) + signed 0#32 ∧ signed (s.reg 1) + signed 0#32 < s.cfg.memWords ∧
      s.readable (signed (s.reg 1) + signed 0#32).toNat = none := by decide

/-- SwStoresTheWord and SwFaults: the last word, the one past it, and below memory. -/
theorem witness_sw :
    let s := at_ 0#32 [(1, 65535#32)] []
    (0 ≤ effectiveAddress (s.reg 1) 0#32 ∧ effectiveAddress (s.reg 1) 0#32 < s.cfg.memWords) ∧
      ((s.cfg.memWords : Int) ≤ signed (s.reg 1) + signed 1#32) ∧ signed (s.reg 0) + signed (neg 1) < 0 := by decide

/-- BeqBranchesOnEquality, JalrLinksThenJumps: both sides of their conditions. -/
theorem witness_conditions :
    let s := at_ 0#32 [(1, 65535#32)] []
    s.reg 0 = s.reg 2 ∧ s.reg 0 ≠ s.reg 1 ∧ (3 : Reg) ≠ 1 := by decide

/-- NoopOnlyAdvances: the ends of the range of noop words, and a word with bits 31:25 set. -/
theorem witness_noop : 0x01C00000 ≤ (0x01C00000#32).toNat ∧ (0x01FFFFFF#32).toNat ≤ 0x01FFFFFF ∧
    (0xFFFFFFFF#32).extractLsb 24 22 = 0b111#3 := by decide

/-- StepRunsTheDecodedInstruction: the last word of memory holds an instruction. -/
theorem witness_step :
    let s := at_ 65535#32 [] [(65535, 29360128#32)]
    s.run = .running ∧ s.pc.toNat < s.cfg.memWords ∧ s.readable s.pc.toNat = some 29360128#32 ∧
      decode s.cfg.highBitsCheck 29360128#32 = .ok .noop := by decide

/-- OnlyARunningCoreSteps, OnlyHaltOrFaultEndsARun: reset is running. -/
theorem witness_running : State.reset.run = .running := rfl

/-- FetchAndDecodeFaults: its three clauses, at the ends of their ranges. -/
theorem witness_fetchFaults :
    let out := at_ 65536#32 [] []
    let unwritten := at_ 65535#32 [] []
    let illegal := at_ 0#32 [] [(0, 0x02000000#32)]
    (out.run = .running ∧ out.cfg.memWords ≤ out.pc.toNat) ∧
    (unwritten.pc.toNat < unwritten.cfg.memWords ∧ unwritten.mem.cell unwritten.pc.toNat = none ∧
      unwritten.cfg.unloadedRead = .fault) ∧
    (illegal.pc.toNat < illegal.cfg.memWords ∧ illegal.readable illegal.pc.toNat = some 0x02000000#32 ∧
      illegal.cfg.highBitsCheck = .strict ∧ 2 ^ 25 ≤ (0x02000000#32).toNat) := by decide

/-- CompletedStepsAreCounted, ParametersNeverChange, InvariantIsKept, ChecksOnlyAddFaults, CountIsNeverRead, FirstFaultInOrder: a
step that
completes, from a state that meets the invariant. -/
theorem witness_completes :
    let s := State.reset.withFetchWord 32 29360128
    s.Inv ∧ ∃ t, step s = .next t ∧ t.isFaulted = false ∧ ∀ r, t.run ≠ .faulted r := by
  refine ⟨⟨by decide, by decide, by decide, fun r h => by cases h⟩, ?_⟩
  exact ⟨{ State.reset with mem := [(0, 29360128#32)], pc := 1#32, count := 1 }, rfl, rfl, fun r h => by cases h⟩

/-- CompletedStepsAreCounted, OnlyHaltHalts, ARunEndsAtMostOnce: a run that halts. -/
theorem witness_halts : ∃ t, step (State.reset.withFetchWord 32 25165824) = .next t ∧ t.run = .halted ∧
    EndsHalted (State.reset.withFetchWord 32 25165824) t := by
  refine ⟨{ State.reset with mem := [(0, 25165824#32)], pc := 1#32, count := 1, run := .halted }, rfl, rfl, ⟨1, rfl⟩, rfl⟩

/-- FaultsArePrecise, FirstFaultInOrder, InvariantIsKept: a step that takes a fault; the fault tests above meet each branch
of FirstFaultInOrder. -/
theorem witness_faults : State.reset.Inv ∧ ∃ t, step State.reset = .next t ∧
    t.run = .faulted ⟨.uninitializedReadFetch, 0#32, 0⟩ := by
  refine ⟨⟨by decide, by decide, by decide, fun r h => by cases h⟩, ?_⟩
  exact ⟨State.reset.takeFault ⟨.uninitializedReadFetch, 0⟩, rfl, rfl⟩

/-- SwFaults, FaultsArePrecise, ChecksOnlyAddFaults, CountIsNeverRead: a running core's sw that takes its fault. -/
theorem witness_storeFault : ∃ t, exec (.sw 0 5 (neg 1)) State.reset = .next t ∧ State.reset.run = .running ∧
    t.run = .faulted ⟨.outOfRangeStore, 0#32, -1⟩ ∧
    ∃ u, step (at_ 0#32 [] [(0, encode (.sw 0 5 (neg 1)))]) = .next u ∧ u.run = .faulted ⟨.outOfRangeStore, 0#32, -1⟩ := by
  refine ⟨State.reset.takeFault ⟨.outOfRangeStore, -1⟩, rfl, rfl, rfl, ?_⟩
  exact ⟨(at_ 0#32 [] [(0, encode (.sw 0 5 (neg 1)))]).takeFault ⟨.outOfRangeStore, -1⟩, rfl, rfl⟩

/-- RegisterWritesFollowTheTable: a step that changes a register. -/
theorem witness_registerWrite : ∃ t, step (at_ 0#32 [] [(0, encode (.nor 0 0 5))]) = .next t ∧
    t.reg 5 ≠ (at_ 0#32 [] [(0, encode (.nor 0 0 5))]).reg 5 := by
  refine ⟨_, rfl, ?_⟩
  decide

/-- OnlyStoresChangeMemory: a step that changes a word. -/
theorem witness_memoryWrite : ∃ t, step (at_ 0#32 [] [(0, encode (.sw 0 5 3#32))]) = .next t ∧
    t.mem.cell 3 ≠ (at_ 0#32 [] [(0, encode (.sw 0 5 3#32))]).mem.cell 3 := by
  refine ⟨{ at_ 0#32 [] [(0, encode (.sw 0 5 3#32)), (3, 0#32)] with pc := 1#32, count := 1 }, rfl, ?_⟩
  decide

/-- BranchesNeverWrapIntoMemory: a taken branch to the first word, and one that is not taken. -/
theorem witness_branch : ∃ t u,
    let s := at_ 10#32 [(1, 7#32)] [(10, encode (.beq 0 0 (neg 11)))]
    let r := at_ 10#32 [(1, 7#32)] [(10, encode (.beq 0 1 5#32))]
    s.cfg.wf ∧ s.fetchDecode = .ok (.beq 0 0 (neg 11)) ∧ exec (.beq 0 0 (neg 11)) s = .next t ∧
      t.pc.toNat < t.cfg.memWords ∧ s.reg 0 = s.reg 0 ∧
    r.fetchDecode = .ok (.beq 0 1 5#32) ∧ exec (.beq 0 1 5#32) r = .next u ∧ u.pc.toNat < u.cfg.memWords ∧
      r.reg 0 ≠ r.reg 1 := by
  refine ⟨{ at_ 10#32 [(1, 7#32)] [(10, encode (.beq 0 0 (neg 11)))] with pc := 0#32, count := 1 },
    { at_ 10#32 [(1, 7#32)] [(10, encode (.beq 0 1 5#32))] with pc := 11#32, count := 1 }, ?_⟩
  refine ⟨by decide, by decide, by rfl, by decide, rfl, by decide, by rfl, by decide, by decide⟩

/-- WrittenIsNotObservable: two different states whose words read the same. -/
theorem witness_sameReads :
    let s : State := { State.reset with cfg := ⟨65536, .zero, .strict⟩ }
    SameReads s { s with mem := [(5, 0#32)] } ∧ s ≠ { s with mem := [(5, 0#32)] } := by
  refine ⟨⟨rfl, rfl, rfl, fun a => ?_, fun _ => rfl, fun _ => rfl⟩, by decide⟩
  by_cases h : a = 5 <;> simp [State.readable, Memory.cell, unlistedRead, State.reset, h]

/-- DatapathRefinesTheStep, ImageIsLoadedFromAddressZero: legal parameters, at both ends of MEM_WORDS; an image that just
fits and one that just does not. -/
theorem witness_config : State.reset.cfg.wf ∧ (⟨1, .fault, .strict⟩ : Config).wf ∧ (⟨2 ^ 31, .zero, .ignore⟩ : Config).wf ∧
    [0#32].length ≤ (⟨1, .fault, .strict⟩ : Config).memWords ∧
    (⟨1, .fault, .strict⟩ : Config).memWords < [0#32, 0#32].length := by decide

/-- EncodeContract: an opcode of each format, and operands at the ends of what is accepted and just past them. -/
theorem witness_contract : Opcode.format .add = .r ∧ Opcode.format .lw = .i ∧ Opcode.format .jalr = .j ∧
    Opcode.format .halt = .o ∧ (0 ≤ (7 : Int) ∧ (7 : Int) ≤ 7) ∧ ¬(0 ≤ (8 : Int) ∧ (8 : Int) ≤ 7) ∧
    (-32768 ≤ (-32768 : Int) ∧ (-32768 : Int) ≤ 32767) ∧ ¬(-32768 ≤ (32768 : Int) ∧ (32768 : Int) ≤ 32767) ∧
    (-2 ^ 31 ≤ (4294967295 : Int) ∧ (4294967295 : Int) ≤ 2 ^ 32 - 1) ∧
    ¬(-2 ^ 31 ≤ (4294967296 : Int) ∧ (4294967296 : Int) ≤ 2 ^ 32 - 1) := by decide

/-- LabelsAreLinePositions: lines with a table, lines with a name twice, and an undefined name. -/
theorem witness_labels :
    let a : SourceLine := ⟨some ['a'], ['n', 'o', 'o', 'p'], []⟩
    collectLabels 0 [a] = .ok [(['a'], 0)] ∧ collectLabels 0 [a, a] = .error .duplicateLabel ∧ (0 : Nat) ≠ 1 ∧
      ([a, a][0]?.bind SourceLine.label) = some ['a'] ∧ ([a, a][1]?.bind SourceLine.label) = some ['a'] ∧
      readInteger ['b'] = none ∧ ∀ k : Nat, ([a][k]?.bind SourceLine.label) ≠ some ['b'] := by
  refine ⟨by decide, by decide, by decide, rfl, rfl, rfl, fun k => ?_⟩
  match k with
  | 0 => decide
  | k + 1 => simp

end Sys2Proof.Tests
end

section
/-! PROOF. What each instruction's arm of `exec` answers, as one equation per outcome of the arm. -/

namespace Sys2Proof.Machine

theorem exec_add (a b d : Reg) (s : State) : exec (.add a b d) s = .next (s.writeAlu aluAdd a b d) := rfl

theorem exec_nor (a b d : Reg) (s : State) : exec (.nor a b d) s = .next (s.writeAlu aluNor a b d) := rfl

theorem exec_jalr (a b : Reg) (s : State) :
    exec (.jalr a b) s = .next ((s.link b).setPc ((s.link b).reg a)).incCount := rfl

theorem exec_halt (s : State) : exec .halt s = .next s.incPc.incCount.setHalted := rfl

theorem exec_noop (s : State) : exec .noop s = .next s.incPc.incCount := rfl

/-- Both outcomes of the condition complete and differ in pc alone (R140). -/
theorem exec_beq (a b : Reg) (off32 : Word) (s : State) :
    exec (.beq a b off32) s =
      .next (s.setPc (if s.reg a = s.reg b then pcOfInt (branchTarget s.pc off32) else s.pc + 1#32)).incCount := by
  by_cases heq : s.reg a = s.reg b
  · simp only [exec, execBeq, wordsEqual_iff, heq, if_true]
  · simp only [exec, execBeq, wordsEqual_iff, heq, if_false]
    rfl

theorem exec_lw_of_ok {a b : Reg} {off32 v : Word} {s : State}
    (h : s.memRead .load (effectiveAddress (s.reg a) off32) = .ok v) :
    exec (.lw a b off32) s = .next (s.incPc.setReg b v).incCount := by
  simp only [exec, execLw, h]

theorem exec_lw_of_error {a b : Reg} {off32 : Word} {s : State} {r : Raised}
    (h : s.memRead .load (effectiveAddress (s.reg a) off32) = .error r) :
    exec (.lw a b off32) s = .next (s.takeFault r) := by
  simp only [exec, execLw, h]

theorem exec_sw_of_ok {a b : Reg} {off32 : Word} {s t : State}
    (h : s.incPc.memWrite (effectiveAddress (s.reg a) off32) (s.reg b) = .ok t) :
    exec (.sw a b off32) s = .next t.incCount := by
  simp only [exec, execSw, h]

theorem exec_sw_of_error {a b : Reg} {off32 : Word} {s : State} {r : Raised}
    (h : s.incPc.memWrite (effectiveAddress (s.reg a) off32) (s.reg b) = .error r) :
    exec (.sw a b off32) s = .next (s.takeFault r) := by
  simp only [exec, execSw, h]

end Sys2Proof.Machine
end

section
/-! PROOF. The registers and the memory across one step (R22). -/

namespace Sys2Proof.Machine

/-- The register an instruction writes, if it writes one: the register part of R22's writes column. -/
def writtenReg : Instr → Option Reg
  | .add _ _ d => some d
  | .nor _ _ d => some d
  | .lw _ b _ => some b
  | .sw _ _ _ => none
  | .beq _ _ _ => none
  | .jalr _ b => some b
  | .halt => none
  | .noop => none

/-- A store leaves every register alone (R44). -/
theorem State.memWrite_reg {s t : State} {a : Int} {v : Word} (h : s.memWrite a v = .ok t) (q : Reg) :
    t.reg q = s.reg q := by
  obtain ⟨-, rfl⟩ := State.memWrite_ok_iff.mp h
  rfl

/-- An instruction, completing or faulting, leaves alone every register it does not write. -/
theorem exec_reg_of_not_written {i : Instr} {s t : State} {q : Reg} (h : exec i s = .next t)
    (hq : writtenReg i ≠ some q) : t.reg q = s.reg q := by
  cases i with
  | add a b d =>
    have hd : q ≠ d := fun e => hq (e ▸ rfl)
    cases h
    simp [State.writeAlu_reg, hd]
  | nor a b d =>
    have hd : q ≠ d := fun e => hq (e ▸ rfl)
    cases h
    simp [State.writeAlu_reg, hd]
  | lw a b off32 =>
    have hb : q ≠ b := fun e => hq (e ▸ rfl)
    cases hr : s.memRead .load (effectiveAddress (s.reg a) off32) with
    | error r => cases (exec_lw_of_error hr).symm.trans h; simp
    | ok v => cases (exec_lw_of_ok hr).symm.trans h; simp [State.reg_setReg, hb]
  | sw a b off32 =>
    cases hw : s.incPc.memWrite (effectiveAddress (s.reg a) off32) (s.reg b) with
    | error r => cases (exec_sw_of_error hw).symm.trans h; simp
    | ok u => cases (exec_sw_of_ok hw).symm.trans h; simp [State.memWrite_reg hw]
  | beq a b off32 => cases (exec_beq a b off32 s).symm.trans h; simp
  | jalr a b =>
    have hb : q ≠ b := fun e => hq (e ▸ rfl)
    cases h
    simp [State.link_reg, hb]
  | halt => cases h; simp
  | noop => cases h; simp

/-- A word that a completing instruction changed is the one a sw put. -/
theorem memoryAfter_cell_ne {i : Instr} {s t : State} {k : Nat} (h : memoryAfter i s t)
    (hk : t.mem.cell k ≠ s.mem.cell k) :
    ∃ a b off32, i = .sw a b off32 ∧ (k : Int) = effectiveAddress (s.reg a) off32 ∧ k < s.cfg.memWords ∧
      t.mem.cell k = some (s.reg b) := by
  obtain ⟨hm, -⟩ | ⟨a, b, off32, rfl, hlow, hhigh, hm⟩ := h
  · exact absurd (by rw [hm]) hk
  · rw [hm] at hk ⊢
    have hkey : k = (effectiveAddress (s.reg a) off32).toNat :=
      by_contra fun hne => hk (Memory.cell_put_other _ hne _)
    refine ⟨a, b, off32, rfl, by omega, by omega, ?_⟩
    rw [hkey, Memory.cell_put_same]

/-- Settles O28: a fault writes no register, and an instruction only the one it names. -/
theorem registerWritesFollowTheTable : Obligations.RegisterWritesFollowTheTable := by
  intro s t q hstep hne
  obtain ⟨-, ⟨r, -, rfl⟩ | ⟨i, hi, hexec⟩⟩ := step_next_cases hstep
  · exact absurd rfl hne
  · have hw : writtenReg i = some q := by_contra fun hn => hne (exec_reg_of_not_written hexec hn)
    refine ⟨i, hi, ?_⟩
    cases i with
    | add | nor | lw | jalr => exact (Option.some.inj hw).symm
    | sw | beq | halt | noop => cases hw

/-- Settles O29: faults leave memory alone, and of the instructions that complete only sw puts a word. -/
theorem onlyStoresChangeMemory : Obligations.OnlyStoresChangeMemory := by
  intro s t k hstep hk
  obtain ⟨-, ⟨r, -, rfl⟩ | ⟨i, hi, hexec⟩⟩ := step_next_cases hstep
  · exact absurd rfl hk
  · obtain ⟨r, rfl, -⟩ | ⟨-, -, -, -, hmem⟩ := exec_next_cases hexec
    · exact absurd rfl hk
    · obtain ⟨a, b, off32, rfl, hrest⟩ := memoryAfter_cell_ne hmem hk
      exact ⟨a, b, off32, hi, hrest⟩

end Sys2Proof.Machine
end

section
/-! PROOF. The counter influences nothing (R27, R28): every operation either commutes with counting n more or, taking a
fault, forgets the count. -/

namespace Sys2Proof.Machine

/-- The same state with n more instructions counted. -/
def State.countMore (s : State) (n : Nat) : State := { s with count := s.count + n }

section
variable (s : State) (n : Nat)

/-! ### What the operations read is the same, and what they change carries the counted n along -/

@[simp] theorem State.countMore_run : (s.countMore n).run = s.run := rfl
@[simp] theorem State.countMore_reg (q : Reg) : (s.countMore n).reg q = s.reg q := rfl
@[simp] theorem State.countMore_fetchDecode : (s.countMore n).fetchDecode = s.fetchDecode := rfl
@[simp] theorem State.countMore_memRead (kind : ReadKind) (a : Int) :
    (s.countMore n).memRead kind a = s.memRead kind a := rfl
@[simp] theorem State.countMore_takeFault (r : Raised) : (s.countMore n).takeFault r = s.takeFault r := rfl
@[simp] theorem State.countMore_incPc : (s.countMore n).incPc = s.incPc.countMore n := rfl
@[simp] theorem State.countMore_setPc (p : Word) : (s.countMore n).setPc p = (s.setPc p).countMore n := rfl
@[simp] theorem State.countMore_setReg (q : Reg) (v : Word) :
    (s.countMore n).setReg q v = (s.setReg q v).countMore n := rfl
@[simp] theorem State.countMore_setHalted : (s.countMore n).setHalted = s.setHalted.countMore n := rfl
@[simp] theorem State.countMore_link (b : Reg) : (s.countMore n).link b = (s.link b).countMore n := rfl

@[simp] theorem State.countMore_incCount : (s.countMore n).incCount = s.incCount.countMore n := by
  simp only [State.countMore, State.incCount, Nat.add_right_comm]

@[simp] theorem State.countMore_writeAlu (op : Word → Word → Word) (a b d : Reg) :
    (s.countMore n).writeAlu op a b d = (s.writeAlu op a b d).countMore n := by
  simp [State.writeAlu]

@[simp] theorem State.countMore_memWrite (a : Int) (v : Word) :
    (s.countMore n).memWrite a v = (s.memWrite a v).map (·.countMore n) := by
  cases hw : s.memWrite a v with
  | error r => exact State.memWrite_error_iff.mpr ((State.memWrite_error_iff (s := s)).mp hw)
  | ok t =>
    obtain ⟨hrange, rfl⟩ := State.memWrite_ok_iff.mp hw
    exact State.memWrite_ok_iff.mpr ⟨hrange, rfl⟩

end

/-- With n more counted an instruction takes the same fault, to the very same state, or completes with n more counted. -/
theorem exec_countMore {i : Instr} {s t : State} (n : Nat) (h : exec i s = .next t) :
    (t.isFaulted = true ∧ exec i (s.countMore n) = .next t) ∨ exec i (s.countMore n) = .next (t.countMore n) := by
  cases i with
  | lw a b off32 =>
    cases hr : s.memRead .load (effectiveAddress (s.reg a) off32) with
    | error r =>
      cases (exec_lw_of_error hr).symm.trans h
      exact .inl ⟨rfl, by rw [exec_lw_of_error (r := r) (by simpa using hr), State.countMore_takeFault]⟩
    | ok v =>
      cases (exec_lw_of_ok hr).symm.trans h
      exact .inr (by rw [exec_lw_of_ok (v := v) (by simpa using hr)]; simp)
  | sw a b off32 =>
    cases hw : s.incPc.memWrite (effectiveAddress (s.reg a) off32) (s.reg b) with
    | error r =>
      cases (exec_sw_of_error hw).symm.trans h
      exact .inl ⟨rfl, by rw [exec_sw_of_error (r := r) (by simp [hw, Except.map]), State.countMore_takeFault]⟩
    | ok u =>
      cases (exec_sw_of_ok hw).symm.trans h
      exact .inr (by rw [exec_sw_of_ok (t := u.countMore n) (by simp [hw, Except.map]), State.countMore_incCount])
  | beq a b off32 =>
    cases (exec_beq a b off32 s).symm.trans h
    exact .inr (by rw [exec_beq, ← State.countMore_incCount]; rfl)
  | add a b d => cases h; exact .inr (by simp [exec_add])
  | nor a b d => cases h; exact .inr (by simp [exec_nor])
  | jalr a b => cases h; exact .inr (by simp [exec_jalr])
  | halt => cases h; exact .inr (by simp [exec_halt])
  | noop => cases h; exact .inr (by simp [exec_noop])

/-- The same of a whole step. -/
theorem step_countMore {s t : State} (n : Nat) (h : step s = .next t) :
    (t.isFaulted = true ∧ step (s.countMore n) = .next t) ∨ step (s.countMore n) = .next (t.countMore n) := by
  obtain ⟨hrun, ⟨r, hr, rfl⟩ | ⟨i, hi, hexec⟩⟩ := step_next_cases h
  · exact .inl ⟨rfl, by simp [step, hrun, hr]⟩
  · have hstep : step (s.countMore n) = exec i (s.countMore n) := by simp [step, hrun, hi]
    rw [hstep]
    exact exec_countMore n hexec

/-- Settles O37: the other step ends in the same faulted state, or in the same state with n more counted. -/
theorem countIsNeverRead : Obligations.CountIsNeverRead := by
  intro s t n hstep
  obtain ⟨hfault, hother⟩ | hother := step_countMore n hstep
  · exact ⟨fun hno => absurd hfault (by simp [hno]), fun r hr => ⟨t, hother, hr, rfl, rfl⟩⟩
  · exact ⟨fun _ => hother, fun r hr => ⟨t.countMore n, hother, hr, rfl, rfl⟩⟩

end Sys2Proof.Machine
end

section
/-! PROOF. The two memory accesses (R42 to R44): what a write changes and leaves alone, and every answer of a read. -/

namespace Sys2Proof.Machine

/-- A word that no value was put in reads as UNLOADED_READ says (R31, D11). -/
theorem State.readable_of_no_cell {s : State} {a : Nat} (h : s.mem.cell a = none) :
    s.readable a = unlistedRead s.cfg.unloadedRead := by
  simp [State.readable, h]

/-- Settles O6: the state a write answers has the word put in memory and differs in nothing else. -/
theorem memWriteSetsOneWord : Obligations.MemWriteSetsOneWord := by
  intro s a v hlow hhigh
  have hcell : (s.mem.put a.toNat v).cell a.toNat = some v := Memory.cell_put_same _ _ _
  refine ⟨_, State.memWrite_ok_iff.mpr ⟨⟨hlow, hhigh⟩, rfl⟩, hcell, ?written, ?read, ?others,
    rfl, rfl, rfl, rfl, rfl⟩
  case written => simp [State.written]
  case read => exact fun kind => State.memRead_ok_iff.mpr ⟨⟨hlow, hhigh⟩, State.readable_of_cell hcell⟩
  case others =>
    intro k hk
    have hother : (s.mem.put a.toNat v).cell k = s.mem.cell k := Memory.cell_put_other _ (by omega) _
    exact ⟨hother, by simp only [State.written, hother]⟩

/-- Settles O7: out of range the read raises; in range the cell decides and, where it holds nothing, the parameter. -/
theorem memReadAnswers : Obligations.MemReadAnswers := by
  intro s kind a
  by_cases hout : a < 0 ∨ (s.cfg.memWords : Int) ≤ a
  · rw [if_pos hout, State.memRead_error_iff.mpr (.inl ⟨hout, rfl⟩)]
    cases kind <;> rfl
  · have hin : 0 ≤ a ∧ a < (s.cfg.memWords : Int) := by omega
    rw [if_neg hout]
    cases hcell : s.mem.cell a.toNat with
    | some v => exact State.memRead_ok_iff.mpr ⟨hin, State.readable_of_cell hcell⟩
    | none =>
      have hread := State.readable_of_no_cell hcell
      cases hunloaded : s.cfg.unloadedRead with
      | zero => exact State.memRead_ok_iff.mpr ⟨hin, by rw [hread, hunloaded]; rfl⟩
      | fault =>
        rw [State.memRead_error_iff.mpr (.inr ⟨hin, by rw [hread, hunloaded]; rfl, rfl⟩)]
        cases kind <;> rfl

end Sys2Proof.Machine
end

section
/-! PROOF. Encoding then decoding (R76, R77): an encoded word is a sum with one term for each field, and the decoder reads
each term back. -/

namespace Sys2Proof

/-- A word with bits 31:25 zero is refused under no setting (R66). -/
theorem unknownOpcode_of_highBits_zero {w : Word} (h : highBits w = 0#7) (check : HighBitsCheck) :
    unknownOpcode check w = false := by
  cases check with
  | strict => simp [unknownOpcode, h]
  | ignore => rfl

/-- The decoded offset in arithmetic on the word's number: bits 15:0 in two's complement (R65, R70). -/
theorem signed_off32Field_eq_ite (w : Word) :
    signed (off32Field w) =
      if w.toNat % 2 ^ 16 < 2 ^ 15 then ((w.toNat % 2 ^ 16 : Nat) : Int) else (w.toNat % 2 ^ 16 : Nat) - 2 ^ 16 := by
  have hfield : (w.extractLsb 15 0).toNat = w.toNat % 2 ^ 16 := by simp [BitVec.extractLsb]
  rw [signed_off32Field, BitVec.toInt_eq_toNat_cond, hfield]
  split <;> split <;> omega

/-- An offset of R70's range is the sign extension of its own low 16 bits. -/
theorem off32Field_eq_of_offsetFits {w off32 : Word} (hfits : offsetFits off32 = true)
    (hlow : w.toNat % 2 ^ 16 = off32.toNat % 2 ^ 16) : off32Field w = off32 := by
  have hrange : -32768 ≤ signed off32 ∧ signed off32 ≤ 32767 := by simpa [offsetFits] using hfits
  have hvalue : signed off32 = _ := BitVec.toInt_eq_toNat_cond off32
  have hbound := off32.isLt
  have hsigned : signed (off32Field w) = signed off32 := by
    rw [signed_off32Field_eq_ite, hlow]
    split at hvalue <;> split <;> omega
  exact BitVec.eq_of_toInt_eq hsigned

/-- The fields of a word whose number is a sum with one term for each of them. -/
theorem fields_of_toNat_eq_sum {w : Word} {op : Opcode} {a b : Reg} {low : Nat} (hlow : low < 2 ^ 16)
    (hw : w.toNat = op.tag.toNat * 2 ^ 22 + a.val * 2 ^ 19 + b.val * 2 ^ 16 + low) :
    highBits w = 0#7 ∧ opcodeOfTag (opcodeField w) = op ∧ regAField w = a ∧ regBField w = b ∧
      w.toNat % 2 ^ 16 = low := by
  obtain ⟨hhigh, hop, ha, hb, -⟩ := fields_toNat w
  have htag : op.tag.toNat < 8 := op.tag.isLt
  have hopcode : opcodeField w = op.tag := BitVec.eq_of_toNat_eq (by omega)
  refine ⟨BitVec.eq_of_toNat_eq ?_, by rw [hopcode, opcodeOfTag_tag], Fin.ext ?_, Fin.ext ?_, ?_⟩
  · rw [hhigh, BitVec.toNat_zero]; omega
  all_goals omega

/-- A format O word is a format J word with both registers 0 (R76). -/
theorem encodeO_eq_encodeJ (op : Opcode) : encodeO op = encodeJ op 0 0 := by
  cases op <;> decide

/-! ### What the decoder reads in a word of each format -/

theorem encodeR_fields (op : Opcode) (a b d : Reg) :
    highBits (encodeR op a b d) = 0#7 ∧ opcodeOfTag (opcodeField (encodeR op a b d)) = op ∧
      regAField (encodeR op a b d) = a ∧ regBField (encodeR op a b d) = b ∧ destRegField (encodeR op a b d) = d := by
  have hd : d.val < 2 ^ 16 := by omega
  obtain ⟨hhigh, hop, ha, hb, hlow⟩ := fields_of_toNat_eq_sum hd (encodeR_toNat op a b d)
  obtain ⟨-, -, -, -, hdest⟩ := fields_toNat (encodeR op a b d)
  exact ⟨hhigh, hop, ha, hb, Fin.ext (by omega)⟩

theorem encodeI_fields (op : Opcode) (a b : Reg) {off32 : Word} (hfits : offsetFits off32 = true) :
    highBits (encodeI op a b off32) = 0#7 ∧ opcodeOfTag (opcodeField (encodeI op a b off32)) = op ∧
      regAField (encodeI op a b off32) = a ∧ regBField (encodeI op a b off32) = b ∧
      off32Field (encodeI op a b off32) = off32 := by
  obtain ⟨hhigh, hop, ha, hb, hlow⟩ :=
    fields_of_toNat_eq_sum (Nat.mod_lt _ (by decide)) (encodeI_toNat op a b off32)
  exact ⟨hhigh, hop, ha, hb, off32Field_eq_of_offsetFits hfits hlow⟩

theorem encodeJ_fields (op : Opcode) (a b : Reg) :
    highBits (encodeJ op a b) = 0#7 ∧ opcodeOfTag (opcodeField (encodeJ op a b)) = op ∧
      regAField (encodeJ op a b) = a ∧ regBField (encodeJ op a b) = b := by
  obtain ⟨hhigh, hop, ha, hb, -⟩ := fields_of_toNat_eq_sum (by decide) ((encodeJ_toNat op a b).trans (Nat.add_zero _).symm)
  exact ⟨hhigh, hop, ha, hb⟩

theorem encodeO_fields (op : Opcode) :
    highBits (encodeO op) = 0#7 ∧ opcodeOfTag (opcodeField (encodeO op)) = op := by
  obtain ⟨hhigh, hop, -⟩ := encodeJ_fields op 0 0
  rw [encodeO_eq_encodeJ]
  exact ⟨hhigh, hop⟩

/-- The encoding of a well-formed instruction has bits 31:25 zero, and its fields are those of the instruction (R77). -/
theorem highBits_decodeFields_encode {i : Instr} (hi : i.wellFormed = true) :
    highBits (encode i) = 0#7 ∧ decodeFields (encode i) = i := by
  cases i with
  | add a b d | nor a b d =>
    obtain ⟨hhigh, hop, ha, hb, hd⟩ := encodeR_fields _ a b d
    exact ⟨hhigh, by simp only [encode, decodeFields, hop, ha, hb, hd]⟩
  | lw a b off32 | sw a b off32 | beq a b off32 =>
    obtain ⟨hhigh, hop, ha, hb, hoff⟩ := encodeI_fields _ a b hi
    exact ⟨hhigh, by simp only [encode, decodeFields, hop, ha, hb, hoff]⟩
  | jalr a b =>
    obtain ⟨hhigh, hop, ha, hb⟩ := encodeJ_fields .jalr a b
    exact ⟨hhigh, by simp only [encode, decodeFields, hop, ha, hb]⟩
  | halt | noop =>
    obtain ⟨hhigh, hop⟩ := encodeO_fields _
    exact ⟨hhigh, by simp only [encode, decodeFields, hop]⟩

end Sys2Proof

namespace Sys2Proof.Machine

/-- Settles O2: the decoder reads back the fields the encoder placed; the `.fill` word 2^25 has bit 25 set. -/
theorem encodeThenDecodeIsIdentity : Obligations.EncodeThenDecodeIsIdentity := by
  refine ⟨fun check i hi => ?_, 2 ^ 25, 0x02000000#32, by decide, fun i hok => ?_⟩
  · obtain ⟨hhigh, hfields⟩ := highBits_decodeFields_encode hi
    exact ⟨decode_ok_iff.mpr ⟨unknownOpcode_of_highBits_zero hhigh check, hfields⟩, hhigh⟩
  · obtain ⟨haccepted, -⟩ := decode_ok_iff.mp hok
    exact absurd haccepted (by decide)

/-- The tag of the decoded opcode is bits 24:22 of the word's number (R62, D1). -/
theorem opcodeField_toNat_of_opcode {w : Word} {op : Opcode} (h : opcodeOfTag (opcodeField w) = op) :
    w.toNat / 2 ^ 22 % 8 = op.tag.toNat := by
  obtain ⟨-, hop, -⟩ := fields_toNat w
  rw [← h, tag_opcodeOfTag, hop]

/-- Settles O4: by the opcode, each operand of the decoded instruction is a field of the word, and the fields' numbers are
known. -/
theorem decodedOperandsAreTheWordsFields : Obligations.DecodedOperandsAreTheWordsFields := by
  intro check w i hdecode
  obtain ⟨-, rfl⟩ := decode_ok_iff.mp hdecode
  obtain ⟨-, -, ha, hb, hd⟩ := fields_toNat w
  have hoff := signed_off32Field_eq_ite w
  cases hop : opcodeOfTag (opcodeField w) with
  | add | nor =>
    simp only [decodeFields, hop]
    exact ⟨opcodeField_toNat_of_opcode hop, ha, hb, hd⟩
  | lw | sw | beq =>
    simp only [decodeFields, hop]
    exact ⟨opcodeField_toNat_of_opcode hop, ha, hb, hoff⟩
  | jalr =>
    simp only [decodeFields, hop]
    exact ⟨opcodeField_toNat_of_opcode hop, ha, hb⟩
  | halt | noop =>
    simp only [decodeFields, hop]
    exact opcodeField_toNat_of_opcode hop

end Sys2Proof.Machine
end

section
/-! PROOF. Pass 1 of the assembler (R85): the table it answers binds exactly the labels of the lines, to their positions. -/

namespace Sys2Proof.Machine

@[simp] theorem SymbolTable.find_nil (name : Token) : SymbolTable.find [] name = none := rfl

theorem SymbolTable.find_cons (n name : Token) (i : Nat) (rest : SymbolTable) :
    SymbolTable.find ((n, i) :: rest) name = if name = n then some i else SymbolTable.find rest name := rfl

/-- When pass 1 goes through a first line: it has no label, or one that no later line has. -/
theorem collectLabels_cons_ok_iff {start : Nat} {l : SourceLine} {rest : List SourceLine} {table : SymbolTable} :
    collectLabels start (l :: rest) = .ok table ↔
      ∃ t, collectLabels (start + 1) rest = .ok t ∧
        ((l.label = none ∧ table = t) ∨
          ∃ n, l.label = some n ∧ SymbolTable.find t n = none ∧ table = (n, start) :: t) := by
  cases hrest : collectLabels (start + 1) rest with
  | error e => simp [collectLabels, hrest]
  | ok t =>
    cases hlabel : l.label with
    | none => simp [collectLabels, hrest, hlabel, eq_comm]
    | some n => cases hfind : SymbolTable.find t n <;> simp [collectLabels, hrest, hlabel, hfind, eq_comm]

/-- The one failure of pass 1 is a name defined twice. -/
theorem collectLabels_error {start : Nat} {lines : List SourceLine} {e : AsmError}
    (h : collectLabels start lines = .error e) : e = .duplicateLabel := by
  induction lines generalizing start with
  | nil => cases h
  | cons l rest ih =>
    simp only [collectLabels] at h
    split at h
    · next hrest => cases h; exact ih hrest
    · split at h
      · cases h
      · split at h
        · cases h; rfl
        · cases h

/-- The table binds a name to k exactly when the line at position k, counted from `start`, carries it. -/
theorem collectLabels_find_iff {start : Nat} {lines : List SourceLine} {table : SymbolTable}
    (h : collectLabels start lines = .ok table) (name : Token) (k : Nat) :
    SymbolTable.find table name = some k ↔ ∃ j, k = start + j ∧ lines[j]?.bind SourceLine.label = some name := by
  induction lines generalizing start table with
  | nil => cases h; simp
  | cons l rest ih =>
    obtain ⟨t, ht, hcase⟩ := collectLabels_cons_ok_iff.mp h
    have hlater : SymbolTable.find t name = some k ↔
        ∃ j, k = start + (j + 1) ∧ rest[j]?.bind SourceLine.label = some name := by
      simpa [Nat.add_assoc, Nat.add_comm 1] using ih ht
    have hsplit : (∃ j, k = start + j ∧ (l :: rest)[j]?.bind SourceLine.label = some name) ↔
        (k = start ∧ l.label = some name) ∨ SymbolTable.find t name = some k := by
      rw [hlater, ← Nat.or_exists_add_one]
      simp
    rw [hsplit]
    obtain ⟨hnone, rfl⟩ | ⟨n, hlabel, hnew, rfl⟩ := hcase
    · simp [hnone]
    · rw [SymbolTable.find_cons, hlabel]
      by_cases hname : name = n
      · subst hname
        simp [hnew, eq_comm]
      · simp [hname, Ne.symm hname]

/-- Pass 1 from line 0 (R85). -/
theorem collectLabels_zero_find_iff {lines : List SourceLine} {table : SymbolTable}
    (h : collectLabels 0 lines = .ok table) (name : Token) (k : Nat) :
    SymbolTable.find table name = some k ↔ lines[k]?.bind SourceLine.label = some name := by
  simp [collectLabels_find_iff h]

/-- Settles O45: a table would bind a name of two lines to both positions, and an undefined name to none. -/
theorem labelsAreLinePositions : Obligations.LabelsAreLinePositions := by
  refine ⟨fun lines table h => collectLabels_zero_find_iff h, fun lines name j k hne hj hk => ?twice,
    fun lines table resolve name h hnumeral habsent => ?undefined⟩
  case twice =>
    cases h : collectLabels 0 lines with
    | error e => rw [collectLabels_error h]
    | ok table =>
      have hbindj := (collectLabels_zero_find_iff h name j).mpr hj
      have hbindk := (collectLabels_zero_find_iff h name k).mpr hk
      exact absurd (Option.some.inj (hbindj.symm.trans hbindk)) hne
  case undefined =>
    have hfind : SymbolTable.find table name = none :=
      Option.eq_none_iff_forall_ne_some.mpr fun k hk => habsent k ((collectLabels_zero_find_iff h name k).mp hk)
    simp [literalOrLabel, hnumeral, hfind]

end Sys2Proof.Machine
end

section
/-! PROOF. The sequencer (R100 to R108): when a step is taken and of what instruction, what it counts, and how runs end. -/

namespace Sys2Proof.Machine

/-! ### Which run states are faulted ones -/

theorem State.isFaulted_of_halted {s : State} (h : s.run = .halted) : s.isFaulted = false := by
  simp only [State.isFaulted, h]

theorem State.isFaulted_of_faulted {s : State} {r : FaultRecord} (h : s.run = .faulted r) : s.isFaulted = true := by
  simp only [State.isFaulted, h]

theorem State.isFaulted_of_running {s : State} (h : s.run = .running) : s.isFaulted = false := by
  simp only [State.isFaulted, h]

/-! ### One step -/

theorem step_of_fetchDecode_ok {s : State} {i : Instr} (hrun : s.run = .running) (h : s.fetchDecode = .ok i) :
    step s = exec i s := by
  simp only [step, hrun, h]

theorem step_of_fetchDecode_error {s : State} {r : Raised} (hrun : s.run = .running)
    (h : s.fetchDecode = .error r) : step s = .next (s.takeFault r) := by
  simp only [step, hrun, h]

/-- Every instruction answers a next state: lw and sw do when their access raises too, since a fault is one (R162). -/
theorem exec_exists_next (i : Instr) (s : State) : ∃ t, exec i s = .next t := by
  cases i with
  | lw a b off32 =>
    cases hr : s.memRead .load (effectiveAddress (s.reg a) off32) with
    | error r => exact ⟨_, exec_lw_of_error hr⟩
    | ok v => exact ⟨_, exec_lw_of_ok hr⟩
  | sw a b off32 =>
    cases hw : s.incPc.memWrite (effectiveAddress (s.reg a) off32) (s.reg b) with
    | error r => exact ⟨_, exec_sw_of_error hw⟩
    | ok t => exact ⟨_, exec_sw_of_ok hw⟩
  | beq a b off32 => exact ⟨_, exec_beq a b off32 s⟩
  | add | nor | jalr | halt | noop => exact ⟨_, rfl⟩

/-- A running core always takes a step (R100). -/
theorem step_exists_next {s : State} (hrun : s.run = .running) : ∃ t, step s = .next t := by
  cases hd : s.fetchDecode with
  | error r => exact ⟨_, step_of_fetchDecode_error hrun hd⟩
  | ok i => rw [step_of_fetchDecode_ok hrun hd]; exact exec_exists_next i s

/-- R105: whichever instruction ran, a step that took no fault is counted once. -/
theorem step_count {s t : State} (hstep : step s = .next t) (hok : t.isFaulted = false) : t.count = s.count + 1 := by
  obtain ⟨-, ⟨r, -, rfl⟩ | ⟨i, -, hexec⟩⟩ := step_next_cases hstep
  · cases hok
  · obtain ⟨r, rfl, -⟩ | ⟨-, -, hcount, -⟩ := exec_next_cases hexec
    · cases hok
    · exact hcount

/-- Settles O22: the word at pc is what the fetch answers. -/
theorem stepRunsTheDecodedInstruction : Obligations.StepRunsTheDecodedInstruction := by
  intro s w i hrun hpc hword hdecode
  exact step_of_fetchDecode_ok hrun (State.fetchDecode_ok_iff.mpr ⟨w, State.fetch_ok_iff.mpr ⟨hpc, hword⟩, hdecode⟩)

/-- Settles O23: fetch and decoding of a running core answer an instruction, which always answers a next state, or a
fault, which is taken. -/
theorem onlyARunningCoreSteps : Obligations.OnlyARunningCoreSteps := by
  refine ⟨fun s => ⟨fun ⟨t, hstep⟩ => (step_next_cases hstep).1, step_exists_next⟩, fun s hrun => ?_⟩
  cases hd : s.fetchDecode with
  | ok i => exact .inl ⟨i, rfl, step_of_fetchDecode_ok hrun hd⟩
  | error r => exact .inr ⟨s.takeFault r, rfl, step_of_fetchDecode_error hrun hd, rfl⟩

/-- Settles O25: a halted state is not a faulted one, so the halt is a step that completes. -/
theorem completedStepsAreCounted : Obligations.CompletedStepsAreCounted :=
  ⟨fun _ _ => step_count, fun _ _ hstep hhalt => step_count hstep (State.isFaulted_of_halted hhalt)⟩

/-! ### Runs -/

/-- A running core is still running after k steps, or was stopped by then, by halt or a fault (R108). -/
theorem run_running_or_stopped {s : State} (hrun : s.run = .running) (k : Nat) :
    (∃ t : State, Sys2Proof.core.run k s = .next t ∧ t.run = .running) ∨
    ∃ (j : Nat) (t : State), j ≤ k ∧ Sys2Proof.core.run j s = .next t ∧ (t.run = .halted ∨ t.isFaulted = true) := by
  induction k generalizing s with
  | zero => exact .inl ⟨s, run_zero s, hrun⟩
  | succ k ih =>
    obtain ⟨u, hstep⟩ := step_exists_next hrun
    have hone : Sys2Proof.core.run 1 s = .next u := run_succ_of_next hstep 0
    cases hu : u.run with
    | halted => exact .inr ⟨1, u, by omega, hone, .inl hu⟩
    | faulted r => exact .inr ⟨1, u, by omega, hone, .inr (State.isFaulted_of_faulted hu)⟩
    | running =>
      obtain ⟨t, ht, htrun⟩ | ⟨j, t, hj, ht, hstop⟩ := ih hu
      · exact .inl ⟨t, (run_succ_of_next hstep k).trans ht, htrun⟩
      · exact .inr ⟨j + 1, t, by omega, (run_succ_of_next hstep j).trans ht, hstop⟩

theorem State.countMore_countMore (s : State) (m n : Nat) : (s.countMore m).countMore n = s.countMore (m + n) := by
  simp only [State.countMore, Nat.add_assoc]

/-- A step that only counts repeats forever, since no step reads the count (R27, R28). -/
theorem run_of_step_countMore_one {s : State} (hrun : s.run = .running) (hstep : step s = .next (s.countMore 1))
    (k : Nat) : Sys2Proof.core.run k s = .next (s.countMore k) := by
  induction k generalizing s with
  | zero => rfl
  | succ k ih =>
    have hagain : step (s.countMore 1) = .next ((s.countMore 1).countMore 1) := by
      have hok : (s.countMore 1).isFaulted = false := State.isFaulted_of_running hrun
      obtain ⟨hfault, -⟩ | h := step_countMore 1 hstep
      · exact absurd hfault (ne_true_of_eq_false hok)
      · exact h
    rw [run_succ_of_next hstep, ih (s := s.countMore 1) hrun hagain, State.countMore_countMore, Nat.add_comm]

/-- Reset with one word loaded at address 0: `beq 0 0 -1`, a branch to itself. -/
def branchToItself : State := { State.reset with mem := [(0, encode (.beq 0 0 (-1#32)))] }

theorem branchToItself_step : step branchToItself = .next (branchToItself.countMore 1) := by
  have hdecode : branchToItself.fetchDecode = .ok (.beq 0 0 (-1#32)) := by decide
  have htarget : pcOfInt (branchTarget branchToItself.pc (-1#32)) = branchToItself.pc := by decide
  rw [step_of_fetchDecode_ok rfl hdecode, exec_beq, if_pos rfl, htarget]
  rfl

/-- Settles O39: a running core goes on until halt or a fault, and a branch to itself meets neither. -/
theorem onlyHaltOrFaultEndsARun : Obligations.OnlyHaltOrFaultEndsARun :=
  ⟨fun _ k hrun => run_running_or_stopped hrun k, branchToItself, rfl,
    fun k => ⟨branchToItself.countMore k, run_of_step_countMore_one rfl branchToItself_step k, rfl, rfl⟩⟩

end Sys2Proof.Machine
end

section
/-! PROOF. The two ALU instructions (R120 to R122): the word each computes, and the frame that the two share. -/

namespace Sys2Proof.Machine

/-- The sum of R120 as a number: the exact sum's low 32 bits (D6). -/
theorem aluAdd_toNat (va vb : Word) : (aluAdd va vb).toNat = (va.toNat + vb.toNat) % 2 ^ 32 :=
  BitVec.toNat_add va vb

/-- The word of R121, bit by bit. -/
theorem aluNor_getLsbD (va vb : Word) {k : Nat} (hk : k < 32) :
    (aluNor va vb).getLsbD k = !(va.getLsbD k || vb.getLsbD k) := by
  simp [aluNor, hk]

/-- destReg holds the operation on the old sources, also where it is one of them (R22). -/
@[simp] theorem State.writeAlu_reg_dest (s : State) (op : Word → Word → Word) (a b d : Reg) :
    (s.writeAlu op a b d).reg d = op (s.reg a) (s.reg b) := by
  simp [State.writeAlu_reg]

/-- What a format R instruction leaves unchanged, and how it advances pc and count, whatever the operation (R22, R102,
R105). -/
theorem State.writeAlu_frame (s : State) (op : Word → Word → Word) (a b d : Reg) :
    let t := s.writeAlu op a b d
    (∀ q, q ≠ d → t.reg q = s.reg q) ∧ t.pc = s.pc + 1#32 ∧ (∀ k, t.mem.cell k = s.mem.cell k) ∧
      t.count = s.count + 1 ∧ t.run = s.run ∧ t.cfg = s.cfg ∧ t.drawn = s.drawn :=
  ⟨fun q hq => by rw [State.writeAlu_reg, if_neg hq], rfl, fun _ => rfl, rfl, rfl, rfl, rfl⟩

/-- Settles O12: the word written is the sum of the sources as they were before the write. -/
theorem addWritesTheSum : Obligations.AddWritesTheSum := by
  intro a b d s
  have hsum : ((s.writeAlu aluAdd a b d).reg d).toNat = ((s.reg a).toNat + (s.reg b).toNat) % 2 ^ 32 := by
    rw [State.writeAlu_reg_dest, aluAdd_toNat]
  exact ⟨_, exec_add a b d s, hsum, s.writeAlu_frame aluAdd a b d⟩

/-- Settles O13: the encoding is format R's sum with tag 1, and the word written is known by its bits. -/
theorem norWritesNotOr : Obligations.NorWritesNotOr := by
  intro a b d s
  have hbits : ∀ k, k < 32 →
      ((s.writeAlu aluNor a b d).reg d).getLsbD k = !((s.reg a).getLsbD k || (s.reg b).getLsbD k) := by
    intro k hk
    rw [State.writeAlu_reg_dest, aluNor_getLsbD _ _ hk]
  exact ⟨encodeR_toNat .nor a b d, _, exec_nor a b d s, hbits, s.writeAlu_frame aluNor a b d⟩

end Sys2Proof.Machine
end

section
/-! PROOF. A store in range (R131): the state it completes with. -/

namespace Sys2Proof.Machine

/-- In range sw completes, with its word put in memory and nothing but pc and count advanced beside it. -/
theorem exec_sw_of_inRange {a b : Reg} {off32 : Word} {s : State}
    (hlow : 0 ≤ effectiveAddress (s.reg a) off32) (hhigh : effectiveAddress (s.reg a) off32 < s.cfg.memWords) :
    exec (.sw a b off32) s =
      .next { s.incPc.incCount with mem := s.mem.put (effectiveAddress (s.reg a) off32).toNat (s.reg b) } :=
  exec_sw_of_ok (State.memWrite_ok_iff.mpr ⟨⟨hlow, hhigh⟩, rfl⟩)

/-- Settles O16: the memory after the store is the old one with x[regB] put at EA, and a put is seen at its own address
only. -/
theorem swStoresTheWord : Obligations.SwStoresTheWord := by
  intro a b off32 s hlow hhigh
  refine ⟨_, exec_sw_of_inRange hlow hhigh, fun k hk => ?stored, fun k hk => ?others,
    fun _ => rfl, rfl, rfl, rfl, rfl, rfl⟩
  case stored =>
    rw [hk, Int.toNat_natCast]
    exact Memory.cell_put_same _ _ _
  case others => exact Memory.cell_put_other _ (by omega) _

end Sys2Proof.Machine
end

section
/-! PROOF. halt and noop (R150, R151): the words that noop is decoded from, and the two states that the instructions
complete with. -/

namespace Sys2Proof.Machine

/-- A word that is not refused decodes to noop by its bits 24:22 alone (R67, D1, D4). -/
theorem decode_eq_noop {check : HighBitsCheck} {w : Word} (haccepted : unknownOpcode check w = false)
    (hop : opcodeField w = Opcode.noop.tag) : decode check w = .ok .noop :=
  decode_ok_iff.mpr ⟨haccepted, by simp only [decodeFields, hop, opcodeOfTag_tag]⟩

/-- The words 0x01C00000 to 0x01FFFFFF are those with bits 31:25 zero and bits 24:22 noop's tag. -/
theorem noop_range_fields {w : Word} (hlow : 0x01C00000 ≤ w.toNat) (hhigh : w.toNat ≤ 0x01FFFFFF) :
    highBits w = 0#7 ∧ opcodeField w = Opcode.noop.tag := by
  obtain ⟨hbits, hop, -⟩ := fields_toNat w
  have htag : Opcode.noop.tag.toNat = 7 := rfl
  exact ⟨BitVec.eq_of_toNat_eq (by rw [hbits, BitVec.toNat_zero]; omega), BitVec.eq_of_toNat_eq (by omega)⟩

/-- A halted core takes no step (R100, R153). -/
theorem step_ne_next_of_halted {s : State} (h : s.run = .halted) (u : State) : step s ≠ .next u := by
  intro hstep
  obtain ⟨hrun, -⟩ := step_next_cases hstep
  cases h.symm.trans hrun

/-- What the host reads of a halted core (R184, R185). -/
theorem State.observeHalt_of_halted {s : State} (h : s.run = .halted) :
    s.observeHalt = some ⟨s.pc, s.x, s.mem, s.count⟩ := by
  simp only [State.observeHalt, h]

/-- Settles O21: noop's tag is read from bits 24:22, which are 111 in the whole range of words, and bits 31:25 are zero
there. -/
theorem noopOnlyAdvances : Obligations.NoopOnlyAdvances := by
  refine ⟨rfl, fun check w hlow hhigh => ?range, fun w hop => decode_eq_noop rfl hop,
    fun s => ⟨_, exec_noop s, rfl, rfl, fun _ => rfl, fun _ => rfl, rfl, rfl, rfl⟩⟩
  case range =>
    obtain ⟨hbits, hop⟩ := noop_range_fields hlow hhigh
    exact decode_eq_noop (unknownOpcode_of_highBits_zero hbits check) hop

/-- Settles O20: the state halt completes with is halted, so no step follows and the host reads it. -/
theorem haltStopsTheCore : Obligations.HaltStopsTheCore := by
  refine ⟨rfl, fun s => ?_⟩
  have hhalted : s.incPc.incCount.setHalted.run = .halted := State.setHalted_run _
  exact ⟨_, exec_halt s, hhalted, rfl, rfl, fun _ => rfl, fun _ => rfl, rfl, rfl,
    step_ne_next_of_halted hhalted, State.observeHalt_of_halted hhalted⟩

end Sys2Proof.Machine
end

section
/-! PROOF. Ends of a step and of a run (R163, R184, R185): what a fault leaves as it was, and that a run stops in at most
one state. -/

namespace Sys2Proof.Machine

/-! ### A step that takes a fault -/

/-- A step ends faulted only by taking a fault, of its fetch, its decoding or its instruction, from the state before it. -/
theorem step_eq_takeFault_of_faulted {s t : State} {r : FaultRecord} (hstep : step s = .next t)
    (hfault : t.run = .faulted r) : ∃ e, t = s.takeFault e := by
  obtain ⟨hrun, ⟨e, -, rfl⟩ | ⟨i, -, hexec⟩⟩ := step_next_cases hstep
  · exact ⟨e, rfl⟩
  · obtain ⟨e, rfl, -⟩ | ⟨-, -, -, ⟨-, hhalted⟩ | ⟨-, hkept⟩, -⟩ := exec_next_cases hexec
    · exact ⟨e, rfl⟩
    · cases hfault.symm.trans hhalted
    · cases hfault.symm.trans (hkept.trans hrun)

/-- What the host reads of a faulted core (R185). -/
theorem State.observeFault_of_faulted {s : State} {r : FaultRecord} (h : s.run = .faulted r) :
    s.observeFault = some ⟨r, s.x, s.mem⟩ := by
  simp only [State.observeFault, h]

/-- Settles O27: the state after the step is the one before it with its fault taken, which records the old pc. -/
theorem faultsArePrecise : Obligations.FaultsArePrecise := by
  intro s t r hstep hfault
  obtain ⟨e, rfl⟩ := step_eq_takeFault_of_faulted hstep hfault
  have hia : r.ia = s.pc := by cases hfault; rfl
  exact ⟨State.takeFault_x s e, State.takeFault_mem s e, State.takeFault_cfg s e, hia,
    State.observeFault_of_faulted hfault⟩

/-! ### Where a run stops -/

/-- A halted core is stopped. -/
theorem State.run_ne_running_of_halted {s : State} (h : s.run = .halted) : s.run ≠ .running :=
  fun hrun => by cases h.symm.trans hrun

/-- A faulted core is stopped. -/
theorem State.run_ne_running_of_isFaulted {s : State} (h : s.isFaulted = true) : s.run ≠ .running :=
  fun hrun => absurd h (ne_true_of_eq_false (State.isFaulted_of_running hrun))

/-- From a stopped core a run leads nowhere else (R100). -/
theorem eq_of_run_of_stopped {s t : State} (hs : s.run ≠ .running) {k : Nat}
    (h : Sys2Proof.core.run k s = .next t) : t = s := by
  cases k with
  | zero => cases h; rfl
  | succ k => exact absurd h (run_succ_of_stopped hs k)

/-- Of two runs from one state that stop, neither stops before the other, and a step answers one state. -/
theorem stopped_state_unique {s t u : State} {j k : Nat} (ht : Sys2Proof.core.run j s = .next t)
    (hu : Sys2Proof.core.run k s = .next u) (htstop : t.run ≠ .running) (hustop : u.run ≠ .running) : u = t := by
  induction j generalizing s k with
  | zero =>
    cases ht
    exact eq_of_run_of_stopped htstop hu
  | succ j ih =>
    cases k with
    | zero =>
      cases hu
      exact (eq_of_run_of_stopped hustop ht).symm
    | succ k =>
      have hrun : s.run = .running := by_contra fun hs => run_succ_of_stopped hs j ht
      obtain ⟨v, hstep⟩ := step_exists_next hrun
      rw [run_succ_of_next hstep] at ht hu
      exact ih ht hu

/-- Settles O40: a halted state and a faulted one are both stopped, so each end is the halted state t, which is not a
faulted one. -/
theorem aRunEndsAtMostOnce : Obligations.ARunEndsAtMostOnce := by
  rintro s t ⟨⟨j, hj⟩, hhalted⟩
  have htstop : t.run ≠ .running := State.run_ne_running_of_halted hhalted
  refine ⟨fun u hu => ?halted, fun u hu => ?faulted⟩
  case halted =>
    obtain ⟨⟨k, hk⟩, huhalted⟩ := hu
    exact stopped_state_unique hj hk htstop (State.run_ne_running_of_halted huhalted)
  case faulted =>
    obtain ⟨⟨k, hk⟩, hufault⟩ := hu
    obtain rfl := stopped_state_unique hj hk htstop (State.run_ne_running_of_isFaulted hufault)
    exact absurd hufault (ne_true_of_eq_false (State.isFaulted_of_halted hhalted))

end Sys2Proof.Machine
end

section
/-! PROOF. Which words decode to an instruction (R66 to R68, R76): the used bits of a word are the encoding of the
instruction that the decoder reads in it, and that encoding is the instruction's alone. -/

namespace Sys2Proof

/-! ### The fields of a word masked to its used bits -/

/-- Every format uses bits 24:22 and none of bits 31:25. -/
theorem opcodeFields_and_usedBits (f : Format) (w : Word) :
    highBits (w &&& f.usedBits) = 0#7 ∧ opcodeField (w &&& f.usedBits) = opcodeField w := by
  have hmask : f.usedBits.extractLsb 31 25 = 0#7 ∧ f.usedBits.extractLsb 24 22 = BitVec.allOnes 3 := by
    cases f <;> decide
  obtain ⟨hhigh, hop⟩ := hmask
  constructor
  · rw [highBits, BitVec.extractLsb_and, hhigh]; exact BitVec.and_zero
  · rw [opcodeField, BitVec.extractLsb_and, hop]; exact BitVec.and_allOnes

/-- Every format with registers uses bits 21:19 and 18:16. -/
theorem regFields_and_usedBits {f : Format} (hf : f ≠ .o) (w : Word) :
    regAField (w &&& f.usedBits) = regAField w ∧ regBField (w &&& f.usedBits) = regBField w := by
  have hmask : f.usedBits.extractLsb 21 19 = BitVec.allOnes 3 ∧ f.usedBits.extractLsb 18 16 = BitVec.allOnes 3 := by
    cases f with
    | o => exact absurd rfl hf
    | r | i | j => decide
  obtain ⟨ha, hb⟩ := hmask
  constructor
  · rw [regAField, BitVec.extractLsb_and, ha]; exact congrArg regOfField BitVec.and_allOnes
  · rw [regBField, BitVec.extractLsb_and, hb]; exact congrArg regOfField BitVec.and_allOnes

/-- Format O uses neither register field. -/
theorem regFields_and_usedBits_o (w : Word) :
    regAField (w &&& Format.o.usedBits) = 0 ∧ regBField (w &&& Format.o.usedBits) = 0 := by
  have ha : Format.o.usedBits.extractLsb 21 19 = 0#3 := rfl
  have hb : Format.o.usedBits.extractLsb 18 16 = 0#3 := rfl
  constructor
  · rw [regAField, BitVec.extractLsb_and, ha]; exact congrArg regOfField BitVec.and_zero
  · rw [regBField, BitVec.extractLsb_and, hb]; exact congrArg regOfField BitVec.and_zero

/-- Masking a word with n ones leaves its number modulo 2^n. -/
theorem toNat_and_ones (w : Word) {n : Nat} (hn : n < 32) :
    (w &&& BitVec.ofNat 32 (2 ^ n - 1)).toNat = w.toNat % 2 ^ n := by
  have hlt : 2 ^ n - 1 < 2 ^ 32 := Nat.lt_of_le_of_lt (Nat.sub_le _ _) (Nat.pow_lt_pow_right (by decide) hn)
  rw [BitVec.toNat_and, BitVec.toNat_ofNat, Nat.mod_eq_of_lt hlt, Nat.and_two_pow_sub_one_eq_mod]

/-- A word masked to a format's used bits, as the sum of its fields; of bits 15:0 the format's mask is left. -/
theorem toNat_and_usedBits (f : Format) {w : Word} {op : Opcode} (hw : opcodeOfTag (opcodeField w) = op) :
    (w &&& f.usedBits).toNat = op.tag.toNat * 2 ^ 22 + (regAField (w &&& f.usedBits)).val * 2 ^ 19 +
      (regBField (w &&& f.usedBits)).val * 2 ^ 16 + (w &&& (f.usedBits &&& 0xFFFF#32)).toNat := by
  obtain ⟨hhigh, hop⟩ := opcodeFields_and_usedBits f w
  obtain ⟨nhigh, nop, na, nb, -⟩ := fields_toNat (w &&& f.usedBits)
  have hlow : (w &&& (f.usedBits &&& 0xFFFF#32)).toNat = (w &&& f.usedBits).toNat % 2 ^ 16 := by
    rw [← BitVec.and_assoc]; exact toNat_and_ones _ (n := 16) (by decide)
  rw [hhigh, BitVec.toNat_zero] at nhigh
  rw [hop] at nop
  rw [← hw, tag_opcodeOfTag, hlow]
  omega

/-! ### The used bits are the encoding of the fields -/

theorem and_usedBits_r {w : Word} {op : Opcode} (hw : opcodeOfTag (opcodeField w) = op) :
    w &&& Format.r.usedBits = encodeR op (regAField w) (regBField w) (destRegField w) := by
  obtain ⟨ha, hb⟩ := regFields_and_usedBits (f := .r) nofun w
  obtain ⟨-, -, -, -, hdest⟩ := fields_toNat w
  have hlow : (w &&& (Format.r.usedBits &&& 0xFFFF#32)).toNat = w.toNat % 8 := toNat_and_ones w (n := 3) (by decide)
  refine BitVec.eq_of_toNat_eq ?_
  rw [toNat_and_usedBits _ hw, encodeR_toNat, ha, hb, hdest, hlow]

theorem and_usedBits_i {w : Word} {op : Opcode} (hw : opcodeOfTag (opcodeField w) = op) :
    w &&& Format.i.usedBits = encodeI op (regAField w) (regBField w) (off32Field w) := by
  obtain ⟨ha, hb⟩ := regFields_and_usedBits (f := .i) nofun w
  have hlow : (w &&& (Format.i.usedBits &&& 0xFFFF#32)).toNat = w.toNat % 2 ^ 16 :=
    toNat_and_ones w (n := 16) (by decide)
  have hoff : (off32Field w).toNat % 2 ^ 16 = w.toNat % 2 ^ 16 := by
    have hvalue : signed (off32Field w) = _ := BitVec.toInt_eq_toNat_cond (off32Field w)
    rw [signed_off32Field_eq_ite] at hvalue
    split at hvalue <;> split at hvalue <;> omega
  refine BitVec.eq_of_toNat_eq ?_
  rw [toNat_and_usedBits _ hw, encodeI_toNat, ha, hb, hoff, hlow]

theorem and_usedBits_j {w : Word} {op : Opcode} (hw : opcodeOfTag (opcodeField w) = op) :
    w &&& Format.j.usedBits = encodeJ op (regAField w) (regBField w) := by
  obtain ⟨ha, hb⟩ := regFields_and_usedBits (f := .j) nofun w
  have hlow : w &&& (Format.j.usedBits &&& 0xFFFF#32) = 0#32 := BitVec.and_zero
  refine BitVec.eq_of_toNat_eq ?_
  rw [toNat_and_usedBits _ hw, encodeJ_toNat, ha, hb, hlow, BitVec.toNat_zero, Nat.add_zero]

theorem and_usedBits_o {w : Word} {op : Opcode} (hw : opcodeOfTag (opcodeField w) = op) :
    w &&& Format.o.usedBits = encodeO op := by
  obtain ⟨ha, hb⟩ := regFields_and_usedBits_o w
  have hlow : w &&& (Format.o.usedBits &&& 0xFFFF#32) = 0#32 := BitVec.and_zero
  refine BitVec.eq_of_toNat_eq ?_
  rw [encodeO_eq_encodeJ, toNat_and_usedBits _ hw, encodeJ_toNat, ha, hb, hlow, BitVec.toNat_zero, Nat.add_zero]

/-! ### The decoder's answer -/

/-- The decoded instruction has the opcode that bits 24:22 name (R68). -/
theorem opcode_decodeFields (w : Word) : (decodeFields w).opcode = opcodeOfTag (opcodeField w) := by
  unfold decodeFields
  cases hop : opcodeOfTag (opcodeField w) <;> rfl

/-- The decoder sign-extends a 16-bit field, so R70's range holds of every offset it answers. -/
theorem offsetFits_off32Field (w : Word) : offsetFits (off32Field w) = true := by
  have hvalue := signed_off32Field_eq_ite w
  have hrange : -32768 ≤ signed (off32Field w) ∧ signed (off32Field w) ≤ 32767 := by
    split at hvalue <;> omega
  simpa [offsetFits] using hrange

/-- The decoder answers instructions that have an encoding (R70, R76). -/
theorem wellFormed_decodeFields (w : Word) : (decodeFields w).wellFormed = true := by
  unfold decodeFields
  cases opcodeOfTag (opcodeField w) with
  | lw | sw | beq => exact offsetFits_off32Field w
  | add | nor | jalr | halt | noop => rfl

/-- The bits that the decoder reads of a word are the encoding of what it answers (R67, R68). -/
theorem and_usedBits_eq_encode (w : Word) :
    w &&& (decodeFields w).opcode.format.usedBits = encode (decodeFields w) := by
  cases hop : opcodeOfTag (opcodeField w) with
  | add | nor => simp only [decodeFields, hop]; exact and_usedBits_r hop
  | lw | sw | beq => simp only [decodeFields, hop]; exact and_usedBits_i hop
  | jalr => simp only [decodeFields, hop]; exact and_usedBits_j hop
  | halt | noop => simp only [decodeFields, hop]; exact and_usedBits_o hop

/-- The decoder reads an instruction in every word whose used bits are its encoding. -/
theorem decodeFields_eq_of_and_usedBits {w : Word} {i : Instr} (hi : i.wellFormed = true)
    (hw : w &&& i.opcode.format.usedBits = encode i) : decodeFields w = i := by
  obtain ⟨-, hread⟩ := highBits_decodeFields_encode hi
  have hop : (decodeFields w).opcode = i.opcode := by
    obtain ⟨-, hfield⟩ := opcodeFields_and_usedBits i.opcode.format w
    rw [opcode_decodeFields, ← hfield, hw, ← opcode_decodeFields, hread]
  have hencode : encode (decodeFields w) = encode i := by
    rw [← and_usedBits_eq_encode, hop, hw]
  obtain ⟨-, hagain⟩ := highBits_decodeFields_encode (wellFormed_decodeFields w)
  rw [← hagain, hencode, hread]

end Sys2Proof

namespace Sys2Proof.Machine

/-- A word is accepted under `ignore`, and under `strict` when bits 31:25 are zero (R66). -/
theorem unknownOpcode_eq_false_iff {check : HighBitsCheck} {w : Word} :
    unknownOpcode check w = false ↔ (check = .strict → highBits w = 0#7) := by
  cases check <;> simp [unknownOpcode]

/-- Settles O3: an accepted word decodes to what its used bits encode, and to nothing else, since an encoding decodes to
its own instruction alone. -/
theorem decodeAcceptsExactlyTheEncodings : Obligations.DecodeAcceptsExactlyTheEncodings := by
  intro check w i
  rw [decode_ok_iff, unknownOpcode_eq_false_iff]
  constructor
  · rintro ⟨haccepted, rfl⟩
    exact ⟨wellFormed_decodeFields w, haccepted, and_usedBits_eq_encode w⟩
  · rintro ⟨hi, haccepted, hw⟩
    exact ⟨haccepted, decodeFields_eq_of_and_usedBits hi hw⟩

/-- Bits 31:25 are zero exactly in the words below 2^25. -/
theorem highBits_eq_zero_iff (w : Word) : highBits w = 0#7 ↔ w.toNat < 2 ^ 25 := by
  obtain ⟨hhigh, -⟩ := fields_toNat w
  rw [← BitVec.toNat_inj, hhigh, BitVec.toNat_zero]
  omega

/-- The decoder reads nothing of bits 31:25. -/
theorem decodeFields_and_low25 (w : Word) : decodeFields (w &&& 0x01FFFFFF#32) = decodeFields w := by
  have hmask : ∀ f : Format, 0x01FFFFFF#32 &&& f.usedBits = f.usedBits := by
    intro f; cases f <;> decide
  refine decodeFields_eq_of_and_usedBits (wellFormed_decodeFields w) ?_
  rw [BitVec.and_assoc, hmask, and_usedBits_eq_encode]

/-- Settles O5: what the decoder reads does not depend on the setting, and `strict` refuses a word for bits 31:25
alone. -/
theorem onlyHighBitsMakeAWordIllegal : Obligations.OnlyHighBitsMakeAWordIllegal := by
  intro w
  have hignore : ∀ v, decode .ignore v = .ok (decodeFields v) := fun v => decode_ok_iff.mpr ⟨rfl, rfl⟩
  refine ⟨fun hbig => ?refused, fun hsmall => ⟨_, ?accepted, hignore w⟩, ⟨_, hignore w⟩, ?masked⟩
  case refused =>
    have hhigh : highBits w ≠ 0#7 := fun h => Nat.not_lt.mpr hbig ((highBits_eq_zero_iff w).mp h)
    exact decode_error_iff.mpr ⟨by simp [unknownOpcode, hhigh], rfl⟩
  case accepted =>
    exact decode_ok_iff.mpr ⟨unknownOpcode_of_highBits_zero ((highBits_eq_zero_iff w).mpr hsmall) _, rfl⟩
  case masked => rw [hignore, hignore, decodeFields_and_low25]

end Sys2Proof.Machine
end

section
/-! PROOF. The fetch and the decoder's faults, the first in the order of R164, and the fault a step ends in. -/

namespace Sys2Proof.Machine

/-! ### Fetch and decoding -/

/-- When the fetch raises, and what (R101). -/
theorem State.fetch_error_iff {s : State} {r : Raised} :
    s.fetch = .error r ↔
      (s.cfg.memWords ≤ s.pc.toNat ∧ r = ⟨.outOfRangeFetch, unsigned s.pc⟩) ∨
      (s.pc.toNat < s.cfg.memWords ∧ s.readable s.pc.toNat = none ∧ r = ⟨.uninitializedReadFetch, unsigned s.pc⟩) := by
  have hneg : ¬((s.pc.toNat : Int) < 0) := by omega
  unfold State.fetch
  rw [State.memRead_error_iff]
  simp [unsigned, hneg, ReadKind.outOfRange, ReadKind.uninitialized]

/-- The faults of fetch and decoding with the condition of each (R101, R103). -/
theorem State.fetchDecode_error_cases {s : State} {r : Raised} (h : s.fetchDecode = .error r) :
    (s.cfg.memWords ≤ s.pc.toNat ∧ r = ⟨.outOfRangeFetch, unsigned s.pc⟩) ∨
    (s.pc.toNat < s.cfg.memWords ∧ s.readable s.pc.toNat = none ∧ r = ⟨.uninitializedReadFetch, unsigned s.pc⟩) ∨
    (s.pc.toNat < s.cfg.memWords ∧ ∃ w, s.readable s.pc.toNat = some w ∧
      unknownOpcode s.cfg.highBitsCheck w = true ∧ r = ⟨.unknownOpcode, unsigned w⟩) := by
  obtain hfetch | ⟨w, hfetch, hdecode, rfl⟩ := State.fetchDecode_error_iff.mp h
  · obtain hout | hnone := State.fetch_error_iff.mp hfetch
    · exact .inl hout
    · exact .inr (.inl hnone)
  · obtain ⟨hin, hword⟩ := State.fetch_ok_iff.mp hfetch
    obtain ⟨hunknown, -⟩ := decode_error_iff.mp hdecode
    exact .inr (.inr ⟨hin, w, hword, hunknown, rfl⟩)

theorem State.fetchDecode_of_outOfRange {s : State} (hout : s.cfg.memWords ≤ s.pc.toNat) :
    s.fetchDecode = .error ⟨.outOfRangeFetch, unsigned s.pc⟩ :=
  State.fetchDecode_error_iff.mpr (.inl (State.fetch_error_iff.mpr (.inl ⟨hout, rfl⟩)))

theorem State.fetchDecode_of_no_value {s : State} (hin : s.pc.toNat < s.cfg.memWords)
    (hnone : s.readable s.pc.toNat = none) : s.fetchDecode = .error ⟨.uninitializedReadFetch, unsigned s.pc⟩ :=
  State.fetchDecode_error_iff.mpr (.inl (State.fetch_error_iff.mpr (.inr ⟨hin, hnone, rfl⟩)))

theorem State.fetchDecode_of_unknownOpcode {s : State} {w : Word} (hin : s.pc.toNat < s.cfg.memWords)
    (hword : s.readable s.pc.toNat = some w) (hunknown : unknownOpcode s.cfg.highBitsCheck w = true) :
    s.fetchDecode = .error ⟨.unknownOpcode, unsigned w⟩ :=
  State.fetchDecode_error_iff.mpr
    (.inr ⟨w, State.fetch_ok_iff.mpr ⟨hin, hword⟩, decode_error_iff.mpr ⟨hunknown, rfl⟩, rfl⟩)

theorem State.fetchDecode_of_decode_ok {s : State} {w : Word} {i : Instr} (hin : s.pc.toNat < s.cfg.memWords)
    (hword : s.readable s.pc.toNat = some w) (hdecode : decode s.cfg.highBitsCheck w = .ok i) :
    s.fetchDecode = .ok i :=
  State.fetchDecode_ok_iff.mpr ⟨w, State.fetch_ok_iff.mpr ⟨hin, hword⟩, hdecode⟩

/-- What a step whose fetch or decoding raises leaves (R162, R163). -/
theorem step_fault_frame {s : State} {r : Raised} (hrun : s.run = .running) (h : s.fetchDecode = .error r) :
    ∃ t, step s = .next t ∧ t.run = .faulted ⟨r.cause, s.pc, r.info⟩ ∧ t.x = s.x ∧ t.mem = s.mem ∧ t.cfg = s.cfg :=
  ⟨s.takeFault r, step_of_fetchDecode_error hrun h, rfl, rfl, rfl, rfl⟩

/-- Settles O24: each condition makes fetch or decoding raise its fault, which the step takes. -/
theorem fetchAndDecodeFaults : Obligations.FetchAndDecodeFaults := by
  intro s hrun
  refine ⟨fun hout => ?outOfRange, fun hin hcell hfault => ?unwritten, fun w hin hword hstrict hbig => ?illegal⟩
  case outOfRange => exact step_fault_frame hrun (State.fetchDecode_of_outOfRange hout)
  case unwritten =>
    have hnone : s.readable s.pc.toNat = none := by rw [State.readable_of_no_cell hcell, hfault]; rfl
    exact step_fault_frame hrun (State.fetchDecode_of_no_value hin hnone)
  case illegal =>
    have hhigh : highBits w ≠ 0#7 := fun h => Nat.not_lt.mpr hbig ((highBits_eq_zero_iff w).mp h)
    have hunknown : unknownOpcode s.cfg.highBitsCheck w = true := by simp [hstrict, unknownOpcode, hhigh]
    exact step_fault_frame hrun (State.fetchDecode_of_unknownOpcode hin hword hunknown)

/-! ### lw and sw -/

section
variable {s : State} {a b : Reg} {off32 : Word}

/-- lw of a word that exists and has a value. -/
theorem exec_lw_of_readable {v : Word} (hlow : 0 ≤ effectiveAddress (s.reg a) off32)
    (hhigh : effectiveAddress (s.reg a) off32 < s.cfg.memWords)
    (hv : s.readable (effectiveAddress (s.reg a) off32).toNat = some v) :
    exec (.lw a b off32) s = .next (s.incPc.setReg b v).incCount :=
  exec_lw_of_ok (State.memRead_ok_iff.mpr ⟨⟨hlow, hhigh⟩, hv⟩)

theorem exec_lw_of_outOfRange
    (hout : effectiveAddress (s.reg a) off32 < 0 ∨ (s.cfg.memWords : Int) ≤ effectiveAddress (s.reg a) off32) :
    exec (.lw a b off32) s = .next (s.takeFault ⟨.outOfRangeLoad, effectiveAddress (s.reg a) off32⟩) :=
  exec_lw_of_error (State.memRead_error_iff.mpr (.inl ⟨hout, rfl⟩))

theorem exec_lw_of_no_value (hlow : 0 ≤ effectiveAddress (s.reg a) off32)
    (hhigh : effectiveAddress (s.reg a) off32 < s.cfg.memWords)
    (hnone : s.readable (effectiveAddress (s.reg a) off32).toNat = none) :
    exec (.lw a b off32) s = .next (s.takeFault ⟨.uninitializedReadLoad, effectiveAddress (s.reg a) off32⟩) :=
  exec_lw_of_error (State.memRead_error_iff.mpr (.inr ⟨⟨hlow, hhigh⟩, hnone, rfl⟩))

theorem exec_sw_of_outOfRange
    (hout : effectiveAddress (s.reg a) off32 < 0 ∨ (s.cfg.memWords : Int) ≤ effectiveAddress (s.reg a) off32) :
    exec (.sw a b off32) s = .next (s.takeFault ⟨.outOfRangeStore, effectiveAddress (s.reg a) off32⟩) :=
  exec_sw_of_error (State.memWrite_error_iff.mpr ⟨hout, rfl⟩)

end

/-- Settles O14: the read answers v from the old base, and only regB, pc and count are updated. -/
theorem lwLoadsTheWord : Obligations.LwLoadsTheWord := by
  intro a b off32 s v hlow hhigh hv
  exact ⟨_, exec_lw_of_readable hlow hhigh hv, State.reg_setReg_same _ b v,
    fun q hq => State.reg_setReg_other _ hq v, rfl, fun _ => rfl, rfl, rfl, rfl, rfl⟩

/-- Settles O15: the read raises, and the fault is taken from the state before the instruction. -/
theorem lwFaults : Obligations.LwFaults := by
  intro a b off32 s
  exact ⟨fun hout => ⟨_, exec_lw_of_outOfRange hout, rfl, rfl, rfl, rfl⟩,
    fun hlow hhigh hnone => ⟨_, exec_lw_of_no_value hlow hhigh hnone, rfl, rfl, rfl, rfl⟩⟩

/-- Settles O17: out of range the write raises, and in range sw completes and leaves run as it was. -/
theorem swFaults : Obligations.SwFaults := by
  intro a b off32 s
  refine ⟨fun hout => ⟨_, exec_sw_of_outOfRange hout, rfl, rfl, rfl, rfl⟩, fun t r hrun hexec hfault => ?_⟩
  by_cases hout : effectiveAddress (s.reg a) off32 < 0 ∨ (s.cfg.memWords : Int) ≤ effectiveAddress (s.reg a) off32
  · cases (exec_sw_of_outOfRange hout).symm.trans hexec
    cases hfault
    exact ⟨rfl, hout⟩
  · cases (exec_sw_of_inRange (by omega) (by omega)).symm.trans hexec
    cases hrun.symm.trans hfault

/-- Settles O9: the store completed, so its address exists, and its word is what that cell holds. -/
theorem storeIsSeenByFetch : Obligations.StoreIsSeenByFetch := by
  intro s t u a b off32 hexec hok hrun hmem hcfg hpc
  by_cases hout : effectiveAddress (s.reg a) off32 < 0 ∨ (s.cfg.memWords : Int) ≤ effectiveAddress (s.reg a) off32
  · cases (exec_sw_of_outOfRange hout).symm.trans hexec
    cases hok
  · cases (exec_sw_of_inRange (by omega) (by omega)).symm.trans hexec
    have hcell : u.mem.cell u.pc.toNat = some (s.reg b) := by
      rw [hmem, ← hpc]
      exact Memory.cell_put_same _ _ _
    have hexists : u.pc.toNat < u.cfg.memWords := by
      have hwords : u.cfg.memWords = s.cfg.memWords := congrArg Config.memWords hcfg
      rw [← hpc, unsigned] at hout
      omega
    exact State.fetch_ok_iff.mpr ⟨hexists, State.readable_of_cell hcell⟩

/-! ### The fault of a step -/

/-- Code and info of the fault that a state has taken. -/
def State.faultCodeInfo (s : State) : Option (Nat × Int) :=
  match s.run with
  | .faulted r => some (r.cause.code, r.info)
  | _ => none

theorem State.faultCodeInfo_of_not_faulted {s : State} (h : s.run = .running ∨ s.run = .halted) :
    s.faultCodeInfo = none := by
  obtain h | h := h <;> simp only [State.faultCodeInfo, h]

/-- The fault of lw, if it takes one: the range is checked before the word (R164). -/
theorem exec_lw_faultCodeInfo {s t : State} {a b : Reg} {off32 : Word} {ea : Int} (hrun : s.run = .running)
    (h : exec (.lw a b off32) s = .next t) (hea : effectiveAddress (s.reg a) off32 = ea) :
    t.faultCodeInfo =
      if ea < 0 ∨ s.cfg.memWords ≤ ea then some (3, ea)
      else if s.readable ea.toNat = none then some (6, ea) else none := by
  subst hea
  by_cases hout : effectiveAddress (s.reg a) off32 < 0 ∨ (s.cfg.memWords : Int) ≤ effectiveAddress (s.reg a) off32
  · cases (exec_lw_of_outOfRange hout).symm.trans h
    rw [if_pos hout]; rfl
  · rw [if_neg hout]
    cases hread : s.readable (effectiveAddress (s.reg a) off32).toNat with
    | none =>
      cases (exec_lw_of_no_value (by omega) (by omega) hread).symm.trans h
      rw [if_pos rfl]; rfl
    | some v =>
      cases (exec_lw_of_readable (by omega) (by omega) hread).symm.trans h
      rw [if_neg nofun]; exact State.faultCodeInfo_of_not_faulted (.inl hrun)

/-- The fault of sw, if it takes one. -/
theorem exec_sw_faultCodeInfo {s t : State} {a b : Reg} {off32 : Word} {ea : Int} (hrun : s.run = .running)
    (h : exec (.sw a b off32) s = .next t) (hea : effectiveAddress (s.reg a) off32 = ea) :
    t.faultCodeInfo =
      if ea < 0 ∨ s.cfg.memWords ≤ ea then some (4, ea) else none := by
  subst hea
  by_cases hout : effectiveAddress (s.reg a) off32 < 0 ∨ (s.cfg.memWords : Int) ≤ effectiveAddress (s.reg a) off32
  · cases (exec_sw_of_outOfRange hout).symm.trans h
    rw [if_pos hout]; rfl
  · cases (exec_sw_of_inRange (by omega) (by omega)).symm.trans h
    rw [if_neg hout]; exact State.faultCodeInfo_of_not_faulted (.inl hrun)

/-- The other instructions take none (R160). -/
theorem exec_faultCodeInfo_of_not_access {i : Instr} {s t : State} (hrun : s.run = .running)
    (h : exec i s = .next t) (hlw : ∀ a b off32, i ≠ .lw a b off32) (hsw : ∀ a b off32, i ≠ .sw a b off32) :
    t.faultCodeInfo = none := by
  refine State.faultCodeInfo_of_not_faulted ?_
  obtain ⟨r, -, ⟨a, b, o, hi, -⟩ | ⟨a, b, o, hi, -⟩⟩ | ⟨-, -, -, ⟨-, hhalted⟩ | ⟨-, hkept⟩, -⟩ := exec_next_cases h
  · exact absurd hi (hlw a b o)
  · exact absurd hi (hsw a b o)
  · exact .inr hhalted
  · exact .inl (hkept.trans hrun)

/-- Settles O26: the step meets its faults in the order of the chain, each when the ones before it do not apply. -/
theorem firstFaultInOrder : Obligations.FirstFaultInOrder := by
  intro s t hstep
  obtain ⟨hrun, -⟩ := step_next_cases hstep
  have hfetch : ∀ {r : Raised}, s.fetchDecode = .error r → t = s.takeFault r := fun h => by
    cases (step_of_fetchDecode_error hrun h).symm.trans hstep; rfl
  refine ⟨fun r hr => ?address, ?chain⟩
  case address =>
    obtain ⟨-, -, -, hia, -⟩ := faultsArePrecise s t r hstep hr
    exact hia
  case chain =>
    change t.faultCodeInfo = _
    by_cases hout : s.cfg.memWords ≤ s.pc.toNat
    · rw [if_pos hout, hfetch (State.fetchDecode_of_outOfRange hout)]; rfl
    · have hin : s.pc.toNat < s.cfg.memWords := by omega
      rw [if_neg hout]
      cases hword : s.readable s.pc.toNat with
      | none => rw [hfetch (State.fetchDecode_of_no_value hin hword)]; rfl
      | some w =>
        cases hdecode : decode s.cfg.highBitsCheck w with
        | error e =>
          obtain ⟨hunknown, -⟩ := decode_error_iff.mp hdecode
          simp only [hdecode]
          rw [hfetch (State.fetchDecode_of_unknownOpcode hin hword hunknown)]; rfl
        | ok i =>
          have hexec : exec i s = .next t :=
            (step_of_fetchDecode_ok hrun (State.fetchDecode_of_decode_ok hin hword hdecode)).symm.trans hstep
          simp only [hdecode]
          cases i with
          | lw a b off32 => exact exec_lw_faultCodeInfo hrun hexec rfl
          | sw a b off32 => exact exec_sw_faultCodeInfo hrun hexec rfl
          | add | nor | beq | jalr | halt | noop => exact exec_faultCodeInfo_of_not_access hrun hexec nofun nofun

/-- Settles O30: of what a step can do, only the halt instruction leaves the core halted. -/
theorem onlyHaltHalts : Obligations.OnlyHaltHalts := by
  intro s t hstep
  obtain ⟨hrun, ⟨r, hd, rfl⟩ | ⟨i, hd, hexec⟩⟩ := step_next_cases hstep
  · exact ⟨⟨nofun, fun h => by cases hd.symm.trans h⟩, .inr (.inr rfl)⟩
  · obtain ⟨r, rfl, hraises⟩ | ⟨-, -, -, ⟨rfl, hhalted⟩ | ⟨hne, hkept⟩, -⟩ := exec_next_cases hexec
    · refine ⟨⟨nofun, fun h => ?_⟩, .inr (.inr rfl)⟩
      cases hd.symm.trans h
      obtain ⟨_, _, _, hi, -⟩ | ⟨_, _, _, hi, -⟩ := hraises <;> cases hi
    · exact ⟨⟨fun _ => hd, fun _ => hhalted⟩, .inr (.inl hhalted)⟩
    · have hrunning : t.run = .running := hkept.trans hrun
      refine ⟨⟨fun h => ?_, fun h => ?_⟩, .inl hrunning⟩
      · cases hrunning.symm.trans h
      · cases hd.symm.trans h
        exact absurd rfl hne

/-- Settles O32: taking a fault and completing an instruction both keep the parameters. -/
theorem parametersNeverChange : Obligations.ParametersNeverChange := by
  intro s t hstep
  obtain ⟨-, ⟨r, -, rfl⟩ | ⟨i, -, hexec⟩⟩ := step_next_cases hstep
  · rfl
  · obtain ⟨r, rfl, -⟩ | ⟨hcfg, -⟩ := exec_next_cases hexec
    · rfl
    · exact hcfg

end Sys2Proof.Machine
end

section
/-! PROOF. The invariant (R6, R30, R160, R163): reset with any image that fits meets it, and every step keeps it. -/

namespace Sys2Proof.Machine

/-! ### The steps -/

/-- The record that a faulting step makes is true of the state whose fault it takes, fetch and decoding (R101, R103). -/
theorem State.explains_of_fetchDecode_error {s : State} {r : Raised} (h : s.fetchDecode = .error r) :
    s.explains ⟨r.cause, s.pc, r.info⟩ := by
  obtain ⟨hout, rfl⟩ | ⟨hin, hnone, rfl⟩ | ⟨hin, w, hword, hunknown, rfl⟩ := State.fetchDecode_error_cases h
  · exact ⟨hout, rfl⟩
  · exact ⟨hin, hnone, rfl⟩
  · have hhigh : ¬(s.cfg.highBitsCheck = .strict → highBits w = 0#7) := fun hzero => by
      cases (unknownOpcode_eq_false_iff.mpr hzero).symm.trans hunknown
    obtain ⟨hstrict, hhigh⟩ := Classical.not_imp.mp hhigh
    exact ⟨hin, hstrict, w, hword, hhigh, rfl⟩

/-- The word at the pc of a state that fetches and decodes an instruction. -/
theorem State.holdsInstr_of_fetchDecode_ok {s : State} {i : Instr} (h : s.fetchDecode = .ok i) :
    s.holdsInstr s.pc i := by
  obtain ⟨w, hfetch, hdecode⟩ := State.fetchDecode_ok_iff.mp h
  obtain ⟨hin, hword⟩ := State.fetch_ok_iff.mp hfetch
  exact ⟨hin, w, hword, hdecode⟩

/-- The same for the data access of the instruction at the pc (R130, R131). -/
theorem State.explains_of_raisesFault {s : State} {i : Instr} {r : Raised} (hi : s.holdsInstr s.pc i)
    (h : raisesFault i s r) : s.explains ⟨r.cause, s.pc, r.info⟩ := by
  obtain ⟨a, b, off32, rfl, hread⟩ | ⟨a, b, off32, rfl, hwrite⟩ := h
  · obtain ⟨hout, rfl⟩ | ⟨⟨hlow, hhigh⟩, hnone, rfl⟩ := State.memRead_error_iff.mp hread
    · exact ⟨a, b, off32, hi, rfl, hout⟩
    · exact ⟨a, b, off32, hi, rfl, hlow, hhigh, hnone⟩
  · obtain ⟨hout, rfl⟩ := State.memWrite_error_iff.mp hwrite
    exact ⟨a, b, off32, hi, rfl, hout⟩

/-- Taking a fault changes nothing that its record speaks of (R163). -/
theorem State.Inv.takeFault {s : State} (hs : s.Inv) {r : Raised} (h : s.explains ⟨r.cause, s.pc, r.info⟩) :
    (s.takeFault r).Inv where
  cfg_legal := hs.cfg_legal
  mem_canonical := hs.mem_canonical
  mem_exists := hs.mem_exists
  record_true := fun q hq => by cases hq; exact h

/-- A completing instruction keeps memory canonical and puts no word beyond its end (R30, R42). -/
theorem State.Inv.mem_of_memoryAfter {s t : State} (hs : s.Inv) {i : Instr} (h : memoryAfter i s t) :
    t.mem.wf ∧ ∀ c ∈ t.mem, c.1 < s.cfg.memWords := by
  obtain ⟨hm, -⟩ | ⟨a, b, off32, -, hlow, hhigh, hm⟩ := h
  · rw [hm]; exact ⟨hs.mem_canonical, hs.mem_exists⟩
  · rw [hm]
    refine ⟨Memory.put_wf hs.mem_canonical _ _, fun c hc => ?_⟩
    obtain rfl | hc := Memory.mem_put hc
    · change (effectiveAddress (s.reg a) off32).toNat < s.cfg.memWords
      omega
    · exact hs.mem_exists c hc

/-- Settles O33: a faulting step records a fault that its state explains and changes nothing else of the invariant; a
completing one keeps memory and leaves no fault record. -/
theorem invariantIsKept : Obligations.InvariantIsKept := by
  intro s t hs hstep
  obtain ⟨hrun, ⟨r, hd, rfl⟩ | ⟨i, hd, hexec⟩⟩ := step_next_cases hstep
  · exact hs.takeFault (State.explains_of_fetchDecode_error hd)
  · obtain ⟨r, rfl, hraises⟩ | ⟨hcfg, -, -, hrunAfter, hmem⟩ := exec_next_cases hexec
    · exact hs.takeFault (State.explains_of_raisesFault (State.holdsInstr_of_fetchDecode_ok hd) hraises)
    · obtain ⟨hcanonical, hexists⟩ := hs.mem_of_memoryAfter hmem
      refine ⟨hcfg ▸ hs.cfg_legal, hcanonical, hcfg ▸ hexists, fun r hr => ?_⟩
      obtain ⟨-, hhalted⟩ | ⟨-, hkept⟩ := hrunAfter
      · cases hhalted.symm.trans hr
      · cases (hkept.trans hrun).symm.trans hr

/-! ### Reset -/

/-- Reset with an image that fits meets the invariant, under legal parameters (R180, R181). -/
theorem inv_of_image {cfg : Config} (hcfg : cfg.wf) {image : List Word} (hfits : image.length ≤ cfg.memWords)
    (drawn : Nat) : State.Inv { State.reset with mem := imageCells 0 image, cfg := cfg, drawn := drawn } where
  cfg_legal := hcfg
  mem_canonical := imageCells_wf 0 image
  mem_exists := fun c hc => by
    obtain ⟨-, hbound⟩ := imageCells_bounds hc
    change c.1 < cfg.memWords
    omega
  record_true := nofun

/-- Settles O34: reset is reset with the empty image. -/
theorem invariantAtReset : Obligations.InvariantAtReset :=
  inv_of_image (cfg := Config.default) (image := []) (by decide) (Nat.zero_le _) 0

/-- Settles O42: the image's cells are the whole memory, and everything else is at its reset value. -/
theorem imageIsLoadedFromAddressZero : Obligations.ImageIsLoadedFromAddressZero := by
  intro cfg drawn image
  refine ⟨fun hfits => ⟨_, if_pos hfits, ?_⟩, fun hlong => if_neg (by omega)⟩
  have hcell : ∀ k, Memory.cell (imageCells 0 image) k = image[k]? := fun k => by
    simpa using cell_imageCells 0 image k
  have hwritten : ∀ k, (Memory.cell (imageCells 0 image) k).isSome = decide (k < image.length) := fun k => by
    rw [hcell, Bool.eq_iff_iff]; simp
  exact ⟨hcell, hwritten, State.reg_reset, rfl, rfl, rfl, rfl, fun hcfg => inv_of_image hcfg hfits drawn⟩

/-- Settles O41: the reset values, register by register and word by word. -/
theorem resetValues : Obligations.ResetValues :=
  ⟨State.reg_reset, rfl, rfl, rfl, fun _ => rfl, rfl, rfl, rfl⟩

end Sys2Proof.Machine
end

section
/-! PROOF. `written` is not observable (R31): SameReads is kept by every operation of an instruction, and so by a
step. -/

namespace Sys2Proof.Machine

/-! ### What is read of two states that read the same -/

section
variable {s t : State}

theorem SameReads.reg (h : SameReads s t) (q : Reg) : s.reg q = t.reg q := by
  simp only [State.reg, h.x]

theorem SameReads.memRead (h : SameReads s t) (kind : ReadKind) (a : Int) : s.memRead kind a = t.memRead kind a := by
  simp only [State.memRead, h.cfg, h.readable]

theorem SameReads.fetchDecode (h : SameReads s t) (hpc : s.pc = t.pc) : s.fetchDecode = t.fetchDecode := by
  simp only [State.fetchDecode, State.fetch, h.memRead, hpc, h.cfg]

/-! ### Operations on two states that read the same -/

/-- A fault of two running cores at one pc: the record is the same, and pc and count are compared no more (R163). -/
theorem SameReads.takeFault (h : SameReads s t) (hpc : s.pc = t.pc) (r : Raised) :
    SameReads (s.takeFault r) (t.takeFault r) :=
  ⟨h.x, by simp only [State.takeFault_run, hpc], h.cfg, h.readable, nofun, nofun⟩

theorem SameReads.setReg (h : SameReads s t) (q : Reg) (v : Word) : SameReads (s.setReg q v) (t.setReg q v) :=
  ⟨by simp only [State.setReg_x, h.x], h.run, h.cfg, h.readable, h.pc, h.count⟩

theorem SameReads.setPc (h : SameReads s t) (p : Word) : SameReads (s.setPc p) (t.setPc p) :=
  ⟨h.x, h.run, h.cfg, h.readable, fun _ => rfl, h.count⟩

theorem SameReads.incPc (h : SameReads s t) : SameReads s.incPc t.incPc :=
  ⟨h.x, h.run, h.cfg, h.readable, fun hok => by simp only [State.incPc_pc, h.pc hok], h.count⟩

theorem SameReads.incCount (h : SameReads s t) : SameReads s.incCount t.incCount :=
  ⟨h.x, h.run, h.cfg, h.readable, h.pc, fun hok => by simp only [State.incCount_count, h.count hok]⟩

theorem SameReads.setHalted (h : SameReads s t) (hok : s.isFaulted = false) :
    SameReads s.setHalted t.setHalted :=
  ⟨h.x, rfl, h.cfg, h.readable, fun _ => h.pc hok, fun _ => h.count hok⟩

/-- A store puts the same word in both memories, and every other word still reads the same (R44). -/
theorem SameReads.put (h : SameReads s t) (a : Nat) (v : Word) :
    SameReads { s with mem := s.mem.put a v } { t with mem := t.mem.put a v } :=
  ⟨h.x, h.run, h.cfg, fun k => by rw [State.readable_put, State.readable_put, h.readable], h.pc, h.count⟩

end

/-! ### An instruction, and a step -/

/-- The two states reached by one instruction from running cores that read the same. -/
theorem exec_sameReads {s t : State} (h : SameReads s t) (hok : s.isFaulted = false) (i : Instr) :
    ∃ s' t', exec i s = .next s' ∧ exec i t = .next t' ∧ SameReads s' t' := by
  have hpc : s.pc = t.pc := h.pc hok
  cases i with
  | add a b d | nor a b d =>
    refine ⟨_, _, rfl, rfl, ?_⟩
    rw [State.writeAlu, State.writeAlu, h.reg a, h.reg b]
    exact (h.incPc.setReg d _).incCount
  | lw a b off32 =>
    cases hread : t.memRead .load (effectiveAddress (t.reg a) off32) with
    | error r =>
      refine ⟨_, _, exec_lw_of_error (r := r) ?_, exec_lw_of_error hread, h.takeFault hpc r⟩
      rw [h.memRead, h.reg, hread]
    | ok v =>
      refine ⟨_, _, exec_lw_of_ok (v := v) ?_, exec_lw_of_ok hread, (h.incPc.setReg b v).incCount⟩
      rw [h.memRead, h.reg, hread]
  | sw a b off32 =>
    by_cases hout : effectiveAddress (t.reg a) off32 < 0 ∨ (t.cfg.memWords : Int) ≤ effectiveAddress (t.reg a) off32
    · refine ⟨_, _, exec_sw_of_outOfRange ?_, exec_sw_of_outOfRange hout, ?_⟩
      · rw [h.reg, h.cfg]; exact hout
      · rw [h.reg]; exact h.takeFault hpc _
    · refine ⟨_, _, exec_sw_of_inRange ?_ ?_, exec_sw_of_inRange (by omega) (by omega), ?_⟩
      · rw [h.reg]; omega
      · rw [h.reg, h.cfg]; omega
      · rw [h.reg, h.reg]; exact h.incPc.incCount.put _ _
  | beq a b off32 =>
    refine ⟨_, _, exec_beq a b off32 s, exec_beq a b off32 t, ?_⟩
    rw [h.reg, h.reg, hpc]
    exact (h.setPc _).incCount
  | jalr a b =>
    refine ⟨_, _, rfl, rfl, ?_⟩
    have hlink : SameReads (s.link b) (t.link b) := by
      rw [State.link, State.link, hpc]
      exact h.incPc.setReg b _
    rw [hlink.reg]
    exact (hlink.setPc _).incCount
  | halt => exact ⟨_, _, rfl, rfl, h.incPc.incCount.setHalted hok⟩
  | noop => exact ⟨_, _, rfl, rfl, h.incPc.incCount⟩

/-- Running cores that read the same step to states that read the same. -/
theorem step_sameReads {s t : State} (h : SameReads s t) (hrun : s.run = .running) :
    ∃ s' t', step s = .next s' ∧ step t = .next t' ∧ SameReads s' t' := by
  have hok : s.isFaulted = false := State.isFaulted_of_running hrun
  have hrun' : t.run = .running := h.run ▸ hrun
  have hpc : s.pc = t.pc := h.pc hok
  cases hd : t.fetchDecode with
  | error r =>
    exact ⟨_, _, step_of_fetchDecode_error hrun ((h.fetchDecode hpc).trans hd), step_of_fetchDecode_error hrun' hd,
      h.takeFault hpc r⟩
  | ok i =>
    rw [step_of_fetchDecode_ok hrun ((h.fetchDecode hpc).trans hd), step_of_fetchDecode_ok hrun' hd]
    exact exec_sameReads h hok i

/-- Settles O35: stopped cores stop alike since their run is the same; running ones step alike. -/
theorem writtenIsNotObservable : Obligations.WrittenIsNotObservable := by
  intro s t h
  have hrun' : t.run = s.run := h.run.symm
  cases hrun : s.run with
  | halted => simp only [step, hrun', hrun]
  | faulted r => simp only [step, hrun', hrun]
  | running =>
    obtain ⟨s', t', hs, ht, hsame⟩ := step_sameReads h hrun
    rw [hs, ht]
    exact hsame

end Sys2Proof.Machine
end

section
/-! PROOF. The checks of the default parameters only add faults (D3, D11): with both off, every operation answers what
it answers with them on, unless that was a check's fault. -/

namespace Sys2Proof.Machine

/-- The same state with the checks off. -/
def State.unchecked (s : State) : State := { s with cfg := ⟨s.cfg.memWords, .zero, .ignore⟩ }

/-- The causes that UNLOADED_READ and HIGH_BITS_CHECK turn off: every one but OutOfRange. -/
def FaultCause.ofCheck : FaultCause → Bool
  | .unknownOpcode => true
  | .outOfRangeFetch => false
  | .outOfRangeLoad => false
  | .outOfRangeStore => false
  | .uninitializedReadFetch => true
  | .uninitializedReadLoad => true

section
variable {s : State}

/-! ### Operations with the checks off -/

/-- A word that reads as a value reads so with the checks off: no check decides which value it is. -/
theorem State.unchecked_readable {a : Nat} {v : Word} (h : s.readable a = some v) :
    s.unchecked.readable a = some v := by
  cases hcell : s.mem.cell a with
  | some u =>
    have hu : s.unchecked.mem.cell a = some u := hcell
    rw [State.readable_of_cell hu, ← State.readable_of_cell hcell, h]
  | none =>
    have hu : s.unchecked.mem.cell a = none := hcell
    rw [State.readable_of_no_cell hcell] at h
    rw [State.readable_of_no_cell hu]
    cases hread : s.cfg.unloadedRead with
    | fault => rw [hread] at h; cases h
    | zero => rw [hread] at h; exact h

/-- A read answers the same word, or raises the same OutOfRange, with the checks off, unless it raised a check's
fault. -/
theorem State.unchecked_memRead (kind : ReadKind) (a : Int) :
    s.unchecked.memRead kind a = s.memRead kind a ∨ s.memRead kind a = .error ⟨kind.uninitialized, a⟩ := by
  cases hread : s.memRead kind a with
  | ok v =>
    obtain ⟨hrange, hv⟩ := State.memRead_ok_iff.mp hread
    exact .inl (State.memRead_ok_iff.mpr ⟨hrange, State.unchecked_readable hv⟩)
  | error r =>
    obtain ⟨hout, rfl⟩ | ⟨-, -, rfl⟩ := State.memRead_error_iff.mp hread
    · exact .inl (State.memRead_error_iff.mpr (.inl ⟨hout, rfl⟩))
    · exact .inr rfl

theorem State.unchecked_memWrite (a : Int) (v : Word) :
    s.unchecked.memWrite a v = (s.memWrite a v).map State.unchecked := by
  cases hw : s.memWrite a v with
  | error r => exact State.memWrite_error_iff.mpr ((State.memWrite_error_iff (s := s)).mp hw)
  | ok t =>
    obtain ⟨hrange, rfl⟩ := State.memWrite_ok_iff.mp hw
    exact State.memWrite_ok_iff.mpr ⟨hrange, rfl⟩

/-- A word decodes to the same instruction with the checks off. -/
theorem decode_ignore_of_decode_ok {check : HighBitsCheck} {w : Word} {i : Instr} (h : decode check w = .ok i) :
    decode .ignore w = .ok i := by
  obtain ⟨-, hfields⟩ := decode_ok_iff.mp h
  exact decode_ok_iff.mpr ⟨rfl, hfields⟩

/-- Fetch and decoding answer the same with the checks off, unless they raised a check's fault. -/
theorem State.unchecked_fetchDecode :
    s.unchecked.fetchDecode = s.fetchDecode ∨ ∃ r, s.fetchDecode = .error r ∧ r.cause.ofCheck = true := by
  cases hd : s.fetchDecode with
  | ok i =>
    obtain ⟨w, hfetch, hdecode⟩ := State.fetchDecode_ok_iff.mp hd
    obtain ⟨hin, hword⟩ := State.fetch_ok_iff.mp hfetch
    exact .inl (State.fetchDecode_of_decode_ok hin (State.unchecked_readable hword)
      (decode_ignore_of_decode_ok hdecode))
  | error r =>
    obtain ⟨hout, rfl⟩ | ⟨-, -, rfl⟩ | ⟨-, w, -, -, rfl⟩ := State.fetchDecode_error_cases hd
    · exact .inl (State.fetchDecode_of_outOfRange hout)
    · exact .inr ⟨_, rfl, rfl⟩
    · exact .inr ⟨_, rfl, rfl⟩

end

/-! ### An instruction, and a step -/

/-- An instruction does the same with the checks off, unless it took a check's fault. -/
theorem exec_unchecked {i : Instr} {s t : State} (h : exec i s = .next t) :
    exec i s.unchecked = .next t.unchecked ∨ ∃ r, t = s.takeFault r ∧ r.cause.ofCheck = true := by
  cases i with
  | lw a b off32 =>
    obtain hsame | hcheck := State.unchecked_memRead (s := s) .load (effectiveAddress (s.reg a) off32)
    · left
      cases hread : s.memRead .load (effectiveAddress (s.reg a) off32) with
      | error r => cases (exec_lw_of_error hread).symm.trans h; exact exec_lw_of_error (hsame.trans hread)
      | ok v => cases (exec_lw_of_ok hread).symm.trans h; exact exec_lw_of_ok (hsame.trans hread)
    · cases (exec_lw_of_error hcheck).symm.trans h
      exact .inr ⟨_, rfl, rfl⟩
  | sw a b off32 =>
    left
    have hsame := State.unchecked_memWrite (s := s.incPc) (effectiveAddress (s.reg a) off32) (s.reg b)
    cases hw : s.incPc.memWrite (effectiveAddress (s.reg a) off32) (s.reg b) with
    | error r =>
      cases (exec_sw_of_error hw).symm.trans h
      exact exec_sw_of_error (hsame.trans (by rw [hw]; rfl))
    | ok u =>
      cases (exec_sw_of_ok hw).symm.trans h
      exact exec_sw_of_ok (t := u.unchecked) (hsame.trans (by rw [hw]; rfl))
  | beq a b off32 => cases (exec_beq a b off32 s).symm.trans h; exact .inl (exec_beq a b off32 s.unchecked)
  | add | nor | jalr | halt | noop => cases h; exact .inl rfl

/-- A step does the same with the checks off, unless it took a check's fault. -/
theorem step_unchecked {s t : State} (h : step s = .next t) :
    step s.unchecked = .next t.unchecked ∨ ∃ r, t = s.takeFault r ∧ r.cause.ofCheck = true := by
  obtain ⟨hrun, hcases⟩ := step_next_cases h
  obtain hsame | ⟨r, hr, hcheck⟩ := State.unchecked_fetchDecode (s := s)
  · obtain ⟨r, hd, rfl⟩ | ⟨i, hd, hexec⟩ := hcases
    · exact .inl (step_of_fetchDecode_error hrun (hsame.trans hd))
    · rw [step_of_fetchDecode_ok (s := s.unchecked) hrun (hsame.trans hd)]
      exact exec_unchecked hexec
  · cases (step_of_fetchDecode_error hrun hr).symm.trans h
    exact .inr ⟨r, rfl, hcheck⟩

/-- Settles O36: a completing step took no fault and an OutOfRange is no check's fault, so both are as with the checks
off. -/
theorem checksOnlyAddFaults : Obligations.ChecksOnlyAddFaults := by
  intro s t hstep
  obtain hsame | ⟨q, rfl, hcheck⟩ := step_unchecked hstep
  · have ht : t.unchecked = { t with cfg := ⟨s.cfg.memWords, .zero, .ignore⟩ } := by
      rw [State.unchecked, parametersNeverChange s t hstep]
    exact ⟨fun _ => ht ▸ hsame, fun r hr _ => ⟨t.unchecked, hsame, hr, rfl, rfl⟩⟩
  · refine ⟨nofun, fun r hr hcause => ?_⟩
    cases hr
    have hnone : q.cause.ofCheck = false := by
      obtain hc | hc | hc := hcause <;> exact congrArg FaultCause.ofCheck hc
    cases hnone.symm.trans hcheck

end Sys2Proof.Machine
end

section
/-! PROOF. Addresses and targets: the exact sums of R41 and R140 and the adders that compute them, and the two
instructions that set pc. -/

namespace Sys2Proof.Machine

/-! ### Effective addresses -/

/-- The signed reading of a word lies in the range that R8 gives. -/
theorem signed_bounds (w : Word) : -2 ^ 31 ≤ signed w ∧ signed w < 2 ^ 31 :=
  ⟨BitVec.le_toInt w, BitVec.toInt_lt⟩

/-- R70's range as inequalities. -/
theorem offsetFits_iff (off32 : Word) : offsetFits off32 = true ↔ -32768 ≤ signed off32 ∧ signed off32 ≤ 32767 := by
  simp [offsetFits]

/-- Two 32-bit signed numbers never overflow the 33-bit adder (R133). -/
theorem lsuEa_toInt (va off32 : Word) : (lsuEa va off32).toInt = effectiveAddress va off32 := by
  have hva := signed_bounds va
  have hoff := signed_bounds off32
  rw [lsuEa, BitVec.toInt_add, BitVec.toInt_signExtend_of_le (by decide), BitVec.toInt_signExtend_of_le (by decide)]
  change (signed va + signed off32).bmod (2 ^ 33) = signed va + signed off32
  exact Int.bmod_eq_of_le (by omega) (by omega)

/-- Settles O11: the adder is exact for every offset, and the bounds are the sums of the operands' own. -/
theorem lsuAdderIsExact : Obligations.LsuAdderIsExact := by
  intro va off32 hfits
  obtain ⟨hlow, hhigh⟩ := (offsetFits_iff off32).mp hfits
  have hbase := signed_bounds va
  refine ⟨lsuEa_toInt va off32, ?_, ?_⟩ <;> rw [effectiveAddress] <;> omega

/-- Settles O10: an exact sum that the 32-bit adder wraps is negative or at least 2^31, and the wrapped one is then at
least 2^31 - 2^15 or negative, outside memory too. -/
theorem wrappingAdderSuffices : Obligations.WrappingAdderSuffices := by
  intro memWords base off32 hwords hfits
  obtain ⟨hlow, hhigh⟩ := (offsetFits_iff off32).mp hfits
  have hbase := signed_bounds base
  have hwrapped : signed (base + off32) = (effectiveAddress base off32).bmod (2 ^ 32) := BitVec.toInt_add base off32
  have hsum : effectiveAddress base off32 = signed base + signed off32 := rfl
  by_cases hexact : -2 ^ 31 ≤ effectiveAddress base off32 ∧ effectiveAddress base off32 < 2 ^ 31
  · have hsame : signed (base + off32) = effectiveAddress base off32 :=
      hwrapped.trans (Int.bmod_eq_of_le (by omega) (by omega))
    exact ⟨by rw [hsame], fun _ _ => hsame⟩
  · rw [Int.bmod_def] at hwrapped
    split at hwrapped <;> omega

/-! ### Branch targets and jalr -/

/-- A pc value is its integer modulo 2^32 (R140, D8). -/
theorem pcOfInt_toNat (t : Int) : ((pcOfInt t).toNat : Int) = t % 2 ^ 32 := by
  rw [pcOfInt, BitVec.toNat_ofInt]
  omega

/-- The pc increment as a number (R102). -/
theorem incPc_toNat (pc : Word) : ((pc + 1#32).toNat : Int) = ((pc.toNat : Int) + 1) % 2 ^ 32 := by
  rw [BitVec.toNat_add]
  rfl

/-- The pc after beq as a number, taken or not. -/
theorem beq_pc_toNat (pc off32 : Word) (taken : Prop) [Decidable taken] :
    ((if taken then pcOfInt (branchTarget pc off32) else pc + 1#32).toNat : Int) =
      ((pc.toNat : Int) + 1 + if taken then signed off32 else 0) % 2 ^ 32 := by
  split
  · exact pcOfInt_toNat _
  · rw [incPc_toNat, Int.add_zero]

/-- Settles O18: only pc and count are updated, and pc is the exact target modulo 2^32. -/
theorem beqBranchesOnEquality : Obligations.BeqBranchesOnEquality := by
  intro a b off32 s
  refine ⟨_, exec_beq a b off32 s, ?_, fun _ => rfl, fun _ => rfl, rfl, rfl, rfl, rfl⟩
  refine (beq_pc_toNat s.pc off32 (s.reg a = s.reg b)).trans ?_
  split
  · rfl
  · rw [Int.add_zero]

/-- Settles O31: pc and a 16-bit offset give a sum between -2^15 and 2^31 + 2^15, and modulo 2^32 a negative one is no
address below 2^31. -/
theorem branchesNeverWrapIntoMemory : Obligations.BranchesNeverWrapIntoMemory := by
  intro s t a b off32 hcfg hdecoded hexec hvalid
  obtain ⟨-, hwords⟩ := hcfg
  obtain ⟨w, hfetch, hdecode⟩ := State.fetchDecode_ok_iff.mp hdecoded
  obtain ⟨hpc, -⟩ := State.fetch_ok_iff.mp hfetch
  obtain ⟨hfits, -⟩ := (decodeAcceptsExactlyTheEncodings _ _ _).mp hdecode
  obtain ⟨hlow, hhigh⟩ := (offsetFits_iff off32).mp hfits
  cases (exec_beq a b off32 s).symm.trans hexec
  have htarget := beq_pc_toNat s.pc off32 (s.reg a = s.reg b)
  simp only [State.incCount_pc, State.setPc_pc, State.incCount_cfg, State.setPc_cfg] at hvalid ⊢
  have hoffset : -32768 ≤ (if s.reg a = s.reg b then signed off32 else 0) ∧
      (if s.reg a = s.reg b then signed off32 else 0) ≤ 32767 := by
    split <;> omega
  omega

/-- Settles O19: the target is read after the link, which differs from the old registers at regB alone. -/
theorem jalrLinksThenJumps : Obligations.JalrLinksThenJumps := by
  intro a b s
  have hother : ∀ q, q ≠ b → (s.link b).reg q = s.reg q := fun q hq => by rw [State.link_reg, if_neg hq]
  exact ⟨_, exec_jalr a b s, State.reg_setReg_same _ b _, hother, State.link_reg s b a, fun _ => rfl,
    rfl, rfl, rfl, rfl⟩

end Sys2Proof.Machine
end

section
/-! PROOF. The block diagram computes the step (R72, R73, R109, R123, R124, R133, R143): first what the load/store unit
and the data side answer, then a word through all the blocks, opcode by opcode. -/

namespace Sys2Proof.Machine

/-! ### Load/store unit and data side (R133) -/

section
variable {cfg : Config} {va off32 : Word}

/-- R42 the other way. -/
theorem inRange_eq_false_iff {a : Int} : inRange cfg a = false ↔ a < 0 ∨ (cfg.memWords : Int) ≤ a := by
  rw [← Bool.not_eq_true, inRange_iff]
  omega

/-- `dmem_oob` is the range check of R42 on the exact address. -/
theorem lsuOob_eq_not_inRange : lsuOob cfg (lsuEa va off32) = !inRange cfg (effectiveAddress va off32) := by
  rw [Bool.eq_iff_iff, Bool.not_eq_true', ← Bool.not_eq_true, inRange_iff, ← lsuEa_toInt]
  simp only [lsuOob, Bool.or_eq_true, decide_eq_true_iff]
  omega

/-- In range, the low 32 bits of the 33-bit sum are the address: memory ends at 2^31 at the latest (R6). -/
theorem lsuEa_setWidth_toNat (hcfg : cfg.wf) (hin : inRange cfg (effectiveAddress va off32) = true) :
    ((lsuEa va off32).setWidth 32).toNat = (effectiveAddress va off32).toNat := by
  obtain ⟨-, hwords⟩ := hcfg
  obtain ⟨hlow, hhigh⟩ := (inRange_iff _ _).mp hin
  have hvalue := BitVec.toInt_eq_toNat_cond (lsuEa va off32)
  rw [lsuEa_toInt] at hvalue
  rw [BitVec.toNat_setWidth]
  split at hvalue <;> omega

end

/-- The data side of lw is the read of R42 and R43. -/
theorem dataSide_lw {s : State} (hcfg : s.cfg.wf) (va vb off32 : Word) :
    dataSide s (controlOfOpcode .lw) (lsuUnit s.cfg va vb off32 true false) =
      (s.memRead .load (effectiveAddress va off32)).map some := by
  cases hin : inRange s.cfg (effectiveAddress va off32) with
  | false =>
    simp only [dataSide, controlOfOpcode, lsuUnit, lsuOob_eq_not_inRange, State.memRead, hin, lsuEa_toInt]
    rfl
  | true =>
    obtain ⟨hlow, -⟩ := (inRange_iff _ _).mp hin
    simp only [dataSide, controlOfOpcode, lsuUnit, lsuOob_eq_not_inRange, State.memRead, hin,
      lsuEa_setWidth_toNat hcfg hin, Int.toNat_of_nonneg hlow]
    cases s.readable (effectiveAddress va off32).toNat <;> rfl

/-- The data side of sw is the range check of R42. -/
theorem dataSide_sw (s : State) (va vb off32 : Word) :
    dataSide s (controlOfOpcode .sw) (lsuUnit s.cfg va vb off32 false true) =
      if inRange s.cfg (effectiveAddress va off32) then .ok none
      else .error ⟨.outOfRangeStore, effectiveAddress va off32⟩ := by
  cases hin : inRange s.cfg (effectiveAddress va off32) <;>
    simp [dataSide, controlOfOpcode, lsuUnit, lsuOob_eq_not_inRange, hin, lsuEa_toInt]

/-- The data side of an instruction that accesses no memory. -/
theorem dataSide_of_no_access (s : State) {c : ControlWord} (hre : c.memRe = false) (hwe : c.memWe = false)
    (va vb off32 : Word) : dataSide s c (lsuUnit s.cfg va vb off32 c.memRe c.memWe) = .ok none := by
  simp [dataSide, lsuUnit, hre, hwe]

/-! ### Branch unit (R143) -/

/-- The branch unit's 32-bit sum is the target of R140 modulo 2^32. -/
theorem pcOfInt_branchTarget (pc off32 : Word) : pcOfInt (branchTarget pc off32) = pc + 1#32 + off32 := by
  rw [pcOfInt, branchTarget, BitVec.ofInt_add, BitVec.ofInt_add, BitVec.ofInt_toInt, BitVec.ofInt_natCast,
    BitVec.ofNat_toNat, BitVec.setWidth_eq]
  rfl

/-- `pc_next` of a branch. -/
theorem pcNext_beq (ra rb : Reg) (va vb pc1 off32 : Word) :
    pcNext (controlOfOpcode .beq) (aluEq va vb) ra rb va pc1 off32 = if va = vb then pc1 + off32 else pc1 := by
  simp [pcNext, controlOfOpcode, aluEq]

/-! ### A word through the blocks -/

/-- The decoder's outputs for a word that it accepts with opcode `op`. -/
def decodedSignals (instr : Word) (op : Opcode) : DecoderOut where
  opcode := opcodeField instr
  ra := regAField instr
  rb := regBField instr
  rd := destRegField instr
  off32 := off32Field instr
  unknownOpcode := false
  control := controlOfOpcode op

/-- The load/store unit's outputs for such a word. -/
def lsuSignals (s : State) (instr : Word) (op : Opcode) : LsuOut :=
  lsuUnit s.cfg (s.reg (regAField instr)) (s.reg (regBField instr)) (off32Field instr)
    (controlOfOpcode op).memRe (controlOfOpcode op).memWe

section
variable {s : State} {instr : Word} {op : Opcode} (hknown : unknownOpcode s.cfg.highBitsCheck instr = false)
  (hop : opcodeOfTag (opcodeField instr) = op)
include hknown hop

theorem decoderUnit_of_known : decoderUnit s.cfg.highBitsCheck instr = decodedSignals instr op := by
  simp [decoderUnit, decodedSignals, gateControl, hknown, hop]

/-- A fault of the data side is taken. -/
theorem executeDatapath_of_error {r : Raised}
    (hdata : dataSide s (controlOfOpcode op) (lsuSignals s instr op) = .error r) :
    executeDatapath s instr = s.takeFault r := by
  unfold lsuSignals at hdata
  simp [executeDatapath, decoderUnit_of_known hknown hop, decodedSignals, hdata]

/-- Otherwise the step commits. -/
theorem executeDatapath_of_ok {rdata : Option Word}
    (hdata : dataSide s (controlOfOpcode op) (lsuSignals s instr op) = .ok rdata) :
    executeDatapath s instr =
      commit s (decodedSignals instr op) (lsuSignals s instr op) (s.reg (regAField instr)) (s.reg (regBField instr))
        (s.pc + 1#32) rdata := by
  unfold lsuSignals at hdata ⊢
  simp [executeDatapath, decoderUnit_of_known hknown hop, decodedSignals, hdata]

/-- An instruction that accesses no memory commits. -/
theorem executeDatapath_of_no_access (hre : (controlOfOpcode op).memRe = false)
    (hwe : (controlOfOpcode op).memWe = false) :
    executeDatapath s instr =
      commit s (decodedSignals instr op) (lsuSignals s instr op) (s.reg (regAField instr)) (s.reg (regBField instr))
        (s.pc + 1#32) none :=
  executeDatapath_of_ok hknown hop (dataSide_of_no_access s hre hwe _ _ _)

end

/-- An accepted word does in the blocks what its instruction does. -/
theorem executeDatapath_eq_exec {s : State} (hcfg : s.cfg.wf) {instr : Word}
    (hknown : unknownOpcode s.cfg.highBitsCheck instr = false) :
    .next (executeDatapath s instr) = exec (decodeFields instr) s := by
  cases hop : opcodeOfTag (opcodeField instr) with
  | add | nor | halt | noop =>
    simp only [decodeFields, hop]
    rw [executeDatapath_of_no_access hknown hop rfl rfl]
    rfl
  | beq =>
    simp only [decodeFields, hop]
    rw [executeDatapath_of_no_access hknown hop rfl rfl, exec_beq, pcOfInt_branchTarget,
      ← pcNext_beq (regAField instr) (regBField instr)]
    rfl
  | jalr =>
    simp only [decodeFields, hop]
    rw [executeDatapath_of_no_access hknown hop rfl rfl, exec_jalr, State.link_reg]
    rfl
  | lw =>
    simp only [decodeFields, hop]
    have hdata := dataSide_lw hcfg (s.reg (regAField instr)) (s.reg (regBField instr)) (off32Field instr)
    cases hread : s.memRead .load (effectiveAddress (s.reg (regAField instr)) (off32Field instr)) with
    | error r =>
      rw [hread] at hdata
      rw [executeDatapath_of_error hknown hop hdata, exec_lw_of_error hread]
    | ok v =>
      rw [hread] at hdata
      rw [executeDatapath_of_ok hknown hop hdata, exec_lw_of_ok hread]
      rfl
  | sw =>
    simp only [decodeFields, hop]
    have hdata := dataSide_sw s (s.reg (regAField instr)) (s.reg (regBField instr)) (off32Field instr)
    cases hin : inRange s.cfg (effectiveAddress (s.reg (regAField instr)) (off32Field instr)) with
    | false =>
      rw [hin] at hdata
      rw [executeDatapath_of_error hknown hop hdata, exec_sw_of_outOfRange (inRange_eq_false_iff.mp hin)]
    | true =>
      obtain ⟨hlow, hhigh⟩ := (inRange_iff _ _).mp hin
      have hwe : (lsuSignals s instr .sw).dmemWe = true := by
        simp [lsuSignals, lsuUnit, controlOfOpcode, lsuOob_eq_not_inRange, hin]
      rw [hin] at hdata
      rw [executeDatapath_of_ok hknown hop hdata, exec_sw_of_inRange hlow hhigh, ← lsuEa_setWidth_toNat hcfg hin]
      simp only [commit, hwe, if_true]
      rfl

/-- Settles O38: the sequencer's fetch is the step's, a refused word takes the same fault, and an accepted one does what
its instruction does. -/
theorem datapathRefinesTheStep : Obligations.DatapathRefinesTheStep := by
  intro s hcfg
  cases hrun : s.run with
  | halted => simp only [stepDatapath, step, hrun]
  | faulted r => simp only [stepDatapath, step, hrun]
  | running =>
    by_cases hout : s.cfg.memWords ≤ s.pc.toNat
    · rw [step_of_fetchDecode_error hrun (State.fetchDecode_of_outOfRange hout)]
      simp [stepDatapath, hrun, fetchOob, hout]
    · have hin : s.pc.toNat < s.cfg.memWords := by omega
      cases hword : s.readable s.pc.toNat with
      | none =>
        rw [step_of_fetchDecode_error hrun (State.fetchDecode_of_no_value hin hword)]
        simp [stepDatapath, hrun, fetchOob, hout, hword]
      | some instr =>
        have hblocks : stepDatapath s = .next (executeDatapath s instr) := by
          simp [stepDatapath, hrun, fetchOob, hout, hword]
        rw [hblocks]
        cases hunknown : unknownOpcode s.cfg.highBitsCheck instr with
        | true =>
          rw [step_of_fetchDecode_error hrun (State.fetchDecode_of_unknownOpcode hin hword hunknown)]
          simp [executeDatapath, decoderUnit, hunknown]
        | false =>
          have hdecode : decode s.cfg.highBitsCheck instr = .ok (decodeFields instr) :=
            decode_ok_iff.mpr ⟨hunknown, rfl⟩
          rw [step_of_fetchDecode_ok hrun (State.fetchDecode_of_decode_ok hin hword hdecode)]
          exact executeDatapath_eq_exec hcfg hunknown

end Sys2Proof.Machine
end

section
/-! PROOF. The canonical form of memory (log 2): a memory in it is known by its cells. -/

namespace Sys2Proof.Machine

/-- Below every listed address no word has a value. -/
theorem Memory.cell_eq_none_of_lt {m : Memory} {a : Nat} (h : ∀ c ∈ m, a < c.1) : m.cell a = none := by
  induction m with
  | nil => rfl
  | cons c rest ih =>
    obtain ⟨hc, hrest⟩ := List.forall_mem_cons.mp h
    rw [Memory.cell, if_neg (by omega), ih hrest]

/-- Two memories that agree on every cell do not start at different addresses. -/
theorem Memory.head_le_of_cell_eq {b c : Nat} {v w : Word} {m n : Memory} (hn : Memory.wf ((c, w) :: n))
    (h : Memory.cell ((b, v) :: m) b = Memory.cell ((c, w) :: n) b) : c ≤ b := by
  by_contra hlt
  have hbelow : ∀ d ∈ (c, w) :: n, b < d.1 :=
    List.forall_mem_cons.mpr ⟨by omega, fun d hd => Nat.lt_trans (by omega) (List.rel_of_pairwise_cons hn hd)⟩
  rw [Memory.cell_eq_none_of_lt hbelow, Memory.cell, if_pos rfl] at h
  cases h

/-- Settles O8: both lists start at the lowest address with a value, with its word, and what follows agrees too. -/
theorem equalCellsAreEqualMemory : Obligations.EqualCellsAreEqualMemory := by
  intro m n hm hn hcells
  induction m generalizing n with
  | nil =>
    cases n with
    | nil => rfl
    | cons d n =>
      have hd := hcells d.1
      rw [Memory.cell, Memory.cell, if_pos rfl] at hd
      cases hd
  | cons c m ih =>
    obtain ⟨b, v⟩ := c
    cases n with
    | nil =>
      have hb := hcells b
      rw [Memory.cell, Memory.cell, if_pos rfl] at hb
      cases hb
    | cons d n =>
      obtain ⟨c, w⟩ := d
      have hle := Memory.head_le_of_cell_eq hn (hcells b)
      have hge := Memory.head_le_of_cell_eq hm (hcells c).symm
      obtain rfl : b = c := by omega
      obtain ⟨hmb, hmtail⟩ := List.pairwise_cons.mp hm
      obtain ⟨hnb, hntail⟩ := List.pairwise_cons.mp hn
      have hhead := hcells b
      rw [Memory.cell, Memory.cell, if_pos rfl, if_pos rfl] at hhead
      cases hhead
      have hrest : ∀ a, Memory.cell m a = Memory.cell n a := fun a => by
        by_cases ha : a = b
        · subst ha
          rw [Memory.cell_eq_none_of_lt hmb, Memory.cell_eq_none_of_lt hnb]
        · have hother := hcells a
          rwa [Memory.cell, Memory.cell, if_neg ha, if_neg ha] at hother
      rw [ih n hmtail hntail hrest]

end Sys2Proof.Machine
end

section
/-! PROOF. Decimal numerals (R87, R182, D16): the digits written for a number are read back as it, and the sign as its
sign. -/

namespace Sys2Proof.Machine

theorem digitValue_ofNat {d : Nat} (hd : d < 10) : digitValue (Char.ofNat (48 + d)) = some d := by
  revert d; decide

/-- Reading goes on from the value of the digits before. -/
theorem readDigits_append (acc : Nat) (l r : List Char) :
    readDigits acc (l ++ r) = (readDigits acc l).bind fun n => readDigits n r := by
  induction l generalizing acc with
  | nil => rfl
  | cons c l ih =>
    simp only [List.cons_append, readDigits]
    cases digitValue c with
    | none => rfl
    | some d => exact ih _

/-- With as many digits as the number needs, it is read back. -/
theorem readDigits_writeDigits {fuel n : Nat} (hfuel : n < 10 ^ fuel) (hpos : fuel ≠ 0) :
    readDigits 0 (writeDigits fuel n) = some n := by
  induction fuel generalizing n with
  | zero => exact absurd rfl hpos
  | succ fuel ih =>
    simp only [writeDigits]
    split
    · next hlt => simp [readDigits, digitValue_ofNat hlt]
    · next hge =>
      have hmore : fuel ≠ 0 := fun h => by subst h; omega
      rw [readDigits_append, ih (by rw [Nat.pow_succ] at hfuel; omega) hmore]
      simp [readDigits, digitValue_ofNat (Nat.mod_lt n (by decide : 0 < 10))]
      omega

theorem writeDigits_ne_nil {fuel : Nat} (hpos : fuel ≠ 0) (n : Nat) : writeDigits fuel n ≠ [] := by
  cases fuel with
  | zero => exact absurd rfl hpos
  | succ fuel => simp only [writeDigits]; split <;> simp

theorem readNatural_writeDigits {fuel n : Nat} (hfuel : n < 10 ^ fuel) (hpos : fuel ≠ 0) :
    readNatural (writeDigits fuel n) = some n := by
  have hread := readDigits_writeDigits hfuel hpos
  cases hdigits : writeDigits fuel n with
  | nil => exact absurd hdigits (writeDigits_ne_nil hpos n)
  | cons c cs => rw [readNatural, ← hdigits, hread]

/-- A numeral without a sign: no digit is one. -/
theorem readInteger_of_readNatural {l : List Char} {n : Nat} (h : readNatural l = some n) :
    readInteger l = some (n : Int) := by
  cases l with
  | nil => cases h
  | cons c cs =>
    have hdigit : digitValue c ≠ none := fun hc => by
      rw [readNatural, readDigits, hc] at h
      cases h
    have hminus : c ≠ '-' := fun hc => by subst hc; exact hdigit (by decide)
    have hplus : c ≠ '+' := fun hc => by subst hc; exact hdigit (by decide)
    rw [readInteger, if_neg hminus, if_neg hplus, h]
    rfl

/-- The line written for a word is read as its signed value. -/
theorem readInteger_writeWord (w : Word) : readInteger (writeWord w) = some (signed w) := by
  have hbound : (signed w).natAbs < 10 ^ 10 := by
    have := signed_bounds w
    omega
  have hread := readNatural_writeDigits hbound (by decide)
  rw [writeWord]
  split
  · next hneg =>
    rw [readInteger, if_pos rfl, hread]
    exact congrArg some (show -((signed w).natAbs : Int) = signed w by omega)
  · next hnonneg =>
    rw [readInteger_of_readNatural hread]
    exact congrArg some (by omega)

/-- A word's signed value stands for that word (D16). -/
theorem wordOfInteger_signed (w : Word) : wordOfInteger (signed w) = some w := by
  have := signed_bounds w
  rw [wordOfInteger, if_pos (by omega), BitVec.ofInt_toInt]

/-- Settles O43: the line is the word's signed value, which stands for the word. -/
theorem machineCodeLinesRoundTrip : Obligations.MachineCodeLinesRoundTrip := by
  intro w
  simp only [readMachineWord, readInteger_writeWord, wordOfInteger_signed]

end Sys2Proof.Machine
end

section
/-! PROOF. The encode contract (R76): the three operand checks, then each format's encoder on checked operands. -/

namespace Sys2Proof.Machine

/-! ### Operand checks -/

/-- A register operand names its register, or is refused. -/
theorem checkReg_cases (v : Int) :
    ((0 ≤ v ∧ v ≤ 7) ∧ ∃ r : Reg, checkReg v = .ok r ∧ (r.val : Int) = v) ∨
      (¬(0 ≤ v ∧ v ≤ 7) ∧ checkReg v = .error .invalidRegister) := by
  unfold checkReg
  split
  · next h => exact .inl ⟨h, _, rfl, by simp; omega⟩
  · next h => exact .inr ⟨h, rfl⟩

/-- An offset operand is taken as a word with its low 16 bits, or is refused. -/
theorem checkOffset_cases (v : Int) :
    ((-32768 ≤ v ∧ v ≤ 32767) ∧ ∃ off32 : Word, checkOffset v = .ok off32 ∧ (off32.toNat : Int) % 2 ^ 16 = v % 2 ^ 16) ∨
      (¬(-32768 ≤ v ∧ v ≤ 32767) ∧ checkOffset v = .error .offsetOutOfRange) := by
  unfold checkOffset
  split
  · next h => exact .inl ⟨h, _, rfl, by rw [BitVec.toNat_ofInt]; omega⟩
  · next h => exact .inr ⟨h, rfl⟩

theorem checkFill_of_range {v : Int} (h : -2 ^ 31 ≤ v ∧ v ≤ 2 ^ 32 - 1) :
    ∃ w, checkFill v = .ok w ∧ (w.toNat : Int) = v % 2 ^ 32 := by
  refine ⟨BitVec.ofInt 32 v, ?_, pcOfInt_toNat v⟩
  simp only [checkFill, wordOfInteger, if_pos h]

theorem checkFill_of_not_range {v : Int} (h : ¬(-2 ^ 31 ≤ v ∧ v ≤ 2 ^ 32 - 1)) :
    checkFill v = .error .offsetOutOfRange := by
  simp only [checkFill, wordOfInteger, if_neg h]

/-- Two register operands in a row: both name their registers, or what comes after them is not reached. -/
theorem checkReg_pair_cases (a b : Int) :
    (((0 ≤ a ∧ a ≤ 7) ∧ (0 ≤ b ∧ b ≤ 7)) ∧
      ∃ ra rb : Reg, checkReg a = .ok ra ∧ checkReg b = .ok rb ∧ (ra.val : Int) = a ∧ (rb.val : Int) = b) ∨
    (¬((0 ≤ a ∧ a ≤ 7) ∧ (0 ≤ b ∧ b ≤ 7)) ∧ ∀ k : Reg → Reg → Except AsmError Word,
      (do k (← checkReg a) (← checkReg b)) = .error .invalidRegister) := by
  obtain ⟨ha, ra, hra, hva⟩ | ⟨ha, hra⟩ := checkReg_cases a
  · obtain ⟨hb, rb, hrb, hvb⟩ | ⟨hb, hrb⟩ := checkReg_cases b
    · exact .inl ⟨⟨ha, hb⟩, ra, rb, hra, hrb, hva, hvb⟩
    · exact .inr ⟨fun ⟨_, h⟩ => hb h, fun k => by rw [hra, hrb]; rfl⟩
  · exact .inr ⟨fun ⟨h, _⟩ => ha h, fun k => by rw [hra]; rfl⟩

/-! ### Each format on its operands -/

theorem encodeChecked_r {op : Opcode} (hop : op.format = .r) (a b d : Int) :
    encodeChecked op [a, b, d] = do return encodeR op (← checkReg a) (← checkReg b) (← checkReg d) := by
  cases op with
  | add | nor =>
    simp only [encodeChecked, checkedInstr, checkedR]
    cases checkReg a <;> cases checkReg b <;> cases checkReg d <;> rfl
  | lw | sw | beq | jalr | halt | noop => cases hop

theorem encodeChecked_i {op : Opcode} (hop : op.format = .i) (a b c : Int) :
    encodeChecked op [a, b, c] = do return encodeI op (← checkReg a) (← checkReg b) (← checkOffset c) := by
  cases op with
  | lw | sw | beq =>
    simp only [encodeChecked, checkedInstr, checkedI]
    cases checkReg a <;> cases checkReg b <;> cases checkOffset c <;> rfl
  | add | nor | jalr | halt | noop => cases hop

theorem encodeChecked_j {op : Opcode} (hop : op.format = .j) (a b : Int) :
    encodeChecked op [a, b] = do return encodeJ op (← checkReg a) (← checkReg b) := by
  cases op with
  | jalr =>
    simp only [encodeChecked, checkedInstr, checkedJ]
    cases checkReg a <;> cases checkReg b <;> rfl
  | add | nor | lw | sw | beq | halt | noop => cases hop

theorem encodeChecked_o {op : Opcode} (hop : op.format = .o) : encodeChecked op [] = .ok (encodeO op) := by
  cases op with
  | halt | noop => rfl
  | add | nor | lw | sw | beq | jalr => cases hop

theorem encodeO_toNat (op : Opcode) : (encodeO op).toNat = op.tag.toNat * 2 ^ 22 := by
  rw [encodeO_eq_encodeJ, encodeJ_toNat]
  simp

/-! ### The contract, format by format -/

/-- Three register operands. -/
theorem encodeContract_r {op : Opcode} (hop : op.format = .r) (a b c : Int) :
    ((0 ≤ a ∧ a ≤ 7) ∧ (0 ≤ b ∧ b ≤ 7) ∧ (0 ≤ c ∧ c ≤ 7) → ∃ w, encodeChecked op [a, b, c] = .ok w ∧
      (w.toNat : Int) = op.tag.toNat * 2 ^ 22 + a * 2 ^ 19 + b * 2 ^ 16 + c) ∧
    (¬((0 ≤ a ∧ a ≤ 7) ∧ (0 ≤ b ∧ b ≤ 7) ∧ (0 ≤ c ∧ c ≤ 7)) →
      encodeChecked op [a, b, c] = .error .invalidRegister) := by
  rw [encodeChecked_r hop]
  obtain ⟨⟨ha, hb⟩, ra, rb, hra, hrb, rfl, rfl⟩ | ⟨hab, hfail⟩ := checkReg_pair_cases a b
  · obtain ⟨hc, rc, hrc, rfl⟩ | ⟨hc, hrc⟩ := checkReg_cases c
    · have hword : ((encodeR op ra rb rc).toNat : Int) = _ := congrArg Nat.cast (encodeR_toNat op ra rb rc)
      push_cast at hword
      exact ⟨fun _ => ⟨_, by rw [hra, hrb, hrc]; rfl, hword⟩, fun h => absurd ⟨ha, hb, hc⟩ h⟩
    · exact ⟨fun ⟨_, _, h⟩ => absurd h hc, fun _ => by rw [hra, hrb, hrc]; rfl⟩
  · exact ⟨fun ⟨ha, hb, _⟩ => absurd ⟨ha, hb⟩ hab, fun _ => hfail _⟩

/-- Two register operands and an offset; a bad register is found before a bad offset. -/
theorem encodeContract_i {op : Opcode} (hop : op.format = .i) (a b c : Int) :
    ((0 ≤ a ∧ a ≤ 7) ∧ (0 ≤ b ∧ b ≤ 7) ∧ (-32768 ≤ c ∧ c ≤ 32767) → ∃ w, encodeChecked op [a, b, c] = .ok w ∧
      (w.toNat : Int) = op.tag.toNat * 2 ^ 22 + a * 2 ^ 19 + b * 2 ^ 16 + c % 2 ^ 16) ∧
    (¬((0 ≤ a ∧ a ≤ 7) ∧ (0 ≤ b ∧ b ≤ 7)) → encodeChecked op [a, b, c] = .error .invalidRegister) ∧
    ((0 ≤ a ∧ a ≤ 7) ∧ (0 ≤ b ∧ b ≤ 7) ∧ ¬(-32768 ≤ c ∧ c ≤ 32767) →
      encodeChecked op [a, b, c] = .error .offsetOutOfRange) := by
  rw [encodeChecked_i hop]
  obtain ⟨hab, ra, rb, hra, hrb, rfl, rfl⟩ | ⟨hab, hfail⟩ := checkReg_pair_cases a b
  · obtain ⟨hc, off32, hoff, hlow⟩ | ⟨hc, hoff⟩ := checkOffset_cases c
    · have hword : ((encodeI op ra rb off32).toNat : Int) = _ := congrArg Nat.cast (encodeI_toNat op ra rb off32)
      push_cast at hword
      exact ⟨fun _ => ⟨_, by rw [hra, hrb, hoff]; rfl, hword.trans (by omega)⟩, fun h => absurd hab h,
        fun ⟨_, _, h⟩ => absurd hc h⟩
    · exact ⟨fun ⟨_, _, h⟩ => absurd h hc, fun h => absurd hab h, fun _ => by rw [hra, hrb, hoff]; rfl⟩
  · exact ⟨fun ⟨ha, hb, _⟩ => absurd ⟨ha, hb⟩ hab, fun _ => hfail _, fun ⟨ha, hb, _⟩ => absurd ⟨ha, hb⟩ hab⟩

/-- Two register operands. -/
theorem encodeContract_j {op : Opcode} (hop : op.format = .j) (a b : Int) :
    ((0 ≤ a ∧ a ≤ 7) ∧ (0 ≤ b ∧ b ≤ 7) → ∃ w, encodeChecked op [a, b] = .ok w ∧
      (w.toNat : Int) = op.tag.toNat * 2 ^ 22 + a * 2 ^ 19 + b * 2 ^ 16) ∧
    (¬((0 ≤ a ∧ a ≤ 7) ∧ (0 ≤ b ∧ b ≤ 7)) → encodeChecked op [a, b] = .error .invalidRegister) := by
  rw [encodeChecked_j hop]
  obtain ⟨hab, ra, rb, hra, hrb, rfl, rfl⟩ | ⟨hab, hfail⟩ := checkReg_pair_cases a b
  · have hword : ((encodeJ op ra rb).toNat : Int) = _ := congrArg Nat.cast (encodeJ_toNat op ra rb)
    push_cast at hword
    exact ⟨fun _ => ⟨_, by rw [hra, hrb]; rfl, hword⟩, fun h => absurd hab h⟩
  · exact ⟨fun h => absurd h hab, fun _ => hfail _⟩

/-- Settles O44: the formats one by one, and `.fill`, whose range is checked alone. -/
theorem encodeContract : Obligations.EncodeContract := by
  intro op a b c regOk offOk high
  refine ⟨fun hop => encodeContract_r hop a b c, fun hop => ?offset, fun hop => encodeContract_j hop a b,
    fun hop => ⟨_, encodeChecked_o hop, ?noOperand⟩, checkFill_of_range, checkFill_of_not_range⟩
  case offset =>
    obtain ⟨hok, hreg, hoff⟩ := encodeContract_i hop a b c
    exact ⟨hok, fun ⟨h, _⟩ => hreg h, hoff, fun ⟨h, _⟩ => ⟨_, hreg h⟩⟩
  case noOperand =>
    rw [encodeO_toNat]
    push_cast
    rfl

end Sys2Proof.Machine
end

section
/-! PROOF. The words of 95_test_vectors.md V1.8. -/

namespace Sys2Proof.Machine

/-- Settles O1: each word is the encoding of its instruction, which is well formed. -/
theorem specWordsDecode : Obligations.SpecWordsDecode := by
  have hdecode : ∀ i w, encode i = w → i.wellFormed = true → decode .strict w = .ok i := fun i w hw hi => by
    obtain ⟨hidentity, -⟩ := encodeThenDecodeIsIdentity
    obtain ⟨hback, -⟩ := hidentity .strict i hi
    exact hw ▸ hback
  refine ⟨?_, ?_, ?_, ?_, ?_, ?_, ?_, ?_⟩ <;> exact hdecode _ _ (by decide) (by decide)

end Sys2Proof.Machine
end
